-- ==== Sys2Proof/Word.lean ====
section
/-! DEFINITION. The machine's words (00_scope.md R8, R3) and the names an instruction's fields take. -/

namespace Sys2Proof

/-- XLEN, the width of every host register and cursor field (R8). -/
abbrev xlen : Nat := 32

/-- A 32-bit host register value or cursor field (R8). -/
abbrev Word := BitVec 32

/-- A byte of PMEM, BUF, the byte source or a pixel channel (R3, R38). -/
abbrev Byte := BitVec 8

/-- A cursor slot number: every 2-bit value names a slot (R9, R64). -/
abbrev SlotNo := Fin 4

/-- ENC's payload source, the M bit of the command word (R61): `pmem` is M = 0, `bbs` is M = 1. -/
inductive PayloadSource where
  | pmem
  | bbs
  deriving DecidableEq, Repr, Inhabited

end Sys2Proof
end

