-- ==== Sys2Proof/Syntax.lean ====
section
/-! DEFINITION. The 17 commands, one constructor per row of the opcode map (30_encoding.md R65).
The word's fields are the constructor's arguments; numeric operands are not part of a command word
(R63): they are the latched ARG0 and ARG1. -/

namespace Sys2Proof

/-- A command (R65). -/
inductive Instr where
  /-- ADDR: the address of a flat bit index (R86). -/
  | addr
  /-- MASK: the low-order bit mask (R88). -/
  | mask
  /-- CNEW: create a cursor in slot CA (R90). -/
  | cnew (ca : SlotNo)
  /-- CPOS: the current address of slot CA (R93). -/
  | cpos (ca : SlotNo)
  /-- CADV: advance slot CA by one bit (R95). -/
  | cadv (ca : SlotNo)
  /-- CREM: the remaining bits of slot CA (R98). -/
  | crem (ca : SlotNo)
  /-- CSHIFT: move slot CA by a signed amount (R100). -/
  | cshift (ca : SlotNo)
  /-- CCMP: compare slots CA and CB (R103). -/
  | ccmp (ca cb : SlotNo)
  /-- CSUB: the difference of slots CA and CB (R105). -/
  | csub (ca cb : SlotNo)
  /-- CGET: read the fields of slot CA (R107). -/
  | cget (ca : SlotNo)
  /-- BINIT: fill the window and place the BBS cursor (R110). -/
  | binit
  /-- BRDBIT: read one bit (R114). -/
  | brdbit
  /-- BRDBITS: read bits into PMEM (R116). -/
  | brdbits
  /-- BEOS: probe the byte source for exhaustion (R121). -/
  | beos
  /-- BGET: read the BBS cursor and fill count (R124). -/
  | bget
  /-- ENC: embed a payload into the raster (R132). -/
  | enc (m : PayloadSource)
  /-- DEC: extract a payload from the raster (R137). -/
  | dec
  deriving DecidableEq, Repr, Inhabited

end Sys2Proof
end

