-- ==== Sys2Proof/WellFormed.lean ====
section
/-! DEFINITION. What is well formed: a command word by the legality table (30_encoding.md R66) and a
command line of a host program by the operand lists (R69). An `Instr` needs no check of its own: its
slot numbers and mode are bounded by their types (R64), and every one has a legal word. -/

namespace Sys2Proof

/-- One row of the legality table: a word matches when `word & mask = pattern` (R66). -/
structure LegalRow where
  mask : Word
  pattern : Word
  deriving DecidableEq, Repr

/-- Opcodes that use no field (R66). -/
def noFieldRows : List LegalRow :=
  [0x01, 0x02, 0x20, 0x21, 0x22, 0x23, 0x24, 0x31].map fun opc => ⟨0xFFFFFFFF, opc⟩

/-- Opcodes that use CA only (R66). -/
def caRows : List LegalRow :=
  [0x10, 0x11, 0x12, 0x13, 0x14, 0x17].map fun opc => ⟨0xFFFFFCFF, opc⟩

/-- Opcodes that use CA and CB (R66). -/
def caCbRows : List LegalRow := [0x15, 0x16].map fun opc => ⟨0xFFFFF0FF, opc⟩

/-- ENC, which uses M only (R66). -/
def modeRows : List LegalRow := [⟨0xFFFFEFFF, 0x30⟩]

/-- The legality table of R66, 17 rows. -/
def legalRows : List LegalRow := noFieldRows ++ caRows ++ caCbRows ++ modeRows

/-- A word is legal when it matches a row (R66). -/
def wordLegal (w : Word) : Bool := legalRows.any fun r => w &&& r.mask == r.pattern

/-- A command line of a host program: a command and its `#` operands, ARG0's first (R69). A value is
an integer, since a CSHIFT delta may be written negative. -/
structure CommandLine where
  instr : Instr
  v0 : Option Int := none
  v1 : Option Int := none
  deriving DecidableEq, Repr

/-- How many `#` operands a command's row lists (R69). -/
def operandCount : Instr → Nat
  | .addr | .cnew _ | .brdbits => 2
  | .mask | .cshift _ | .binit | .enc _ | .dec => 1
  | .cpos _ | .cadv _ | .crem _ | .ccmp _ _ | .csub _ _ | .cget _ | .brdbit | .beos | .bget => 0

/-- A 32-bit operand value: unsigned, or for CSHIFT also negative in two's complement (R69). -/
def operandFits (i : Instr) (v : Int) : Bool :=
  match i with
  | .cshift _ => decide (-(2 ^ 31) ≤ v ∧ v < 2 ^ 32)
  | .addr | .mask | .cnew _ | .cpos _ | .cadv _ | .crem _ | .ccmp _ _ | .csub _ _ | .cget _ | .binit
  | .brdbit | .brdbits | .beos | .bget | .enc _ | .dec => decide (0 ≤ v ∧ v < 2 ^ 32)

/-- A well-formed command line has exactly the operands its row lists, in range (R69). -/
def CommandLine.wellFormed (c : CommandLine) : Bool :=
  (c.v0.isSome == decide (1 ≤ operandCount c.instr)) &&
  (c.v1.isSome == decide (2 ≤ operandCount c.instr)) &&
  c.v0.all (operandFits c.instr) && c.v1.all (operandFits c.instr)

end Sys2Proof
end

