-- ==== Sys2Proof/Decode.lean ====
section
/-! DEFINITION. The decoder from 32-bit command words, total, refusing by name, and the encoder
(30_encoding.md R61 to R68). Neither uses the legality table of WellFormed.lean: that the two agree
is a statement. -/

namespace Sys2Proof

/-- Why a word is no legal command (R67). All three give IllegalCommand. -/
inductive DecodeError where
  /-- OPC is none of the 17 values of R65. -/
  | unknownOpcode
  /-- RSV, bits 31:13, is not 0. -/
  | reservedBits
  /-- A field the opcode's row marks "–" is not 0. -/
  | unusedField
  deriving DecidableEq, Repr

/-- OPC, bits 7:0 (R61). -/
def opcField (w : Word) : BitVec 8 := w.extractLsb' 0 8

/-- CA, bits 9:8, a slot number (R61, R64). -/
def caField (w : Word) : SlotNo := (w.extractLsb' 8 2).toFin

/-- CB, bits 11:10, a slot number (R61, R64). -/
def cbField (w : Word) : SlotNo := (w.extractLsb' 10 2).toFin

/-- M, bit 12 (R61): 0 = PMEM, 1 = BBS. -/
def modeField (w : Word) : PayloadSource := if w.extractLsb' 12 1 = 0#1 then .pmem else .bbs

/-- RSV, bits 31:13 (R61). -/
def rsvField (w : Word) : BitVec 19 := w.extractLsb' 13 19

/-- A command that uses no field: CA, CB and M must be 0 (R65, R66). -/
def decodeNoField (i : Instr) (w : Word) : Except DecodeError Instr :=
  if caField w = 0 ∧ cbField w = 0 ∧ modeField w = .pmem then .ok i else .error .unusedField

/-- A command that uses CA only: CB and M must be 0 (R65, R66). -/
def decodeCa (i : SlotNo → Instr) (w : Word) : Except DecodeError Instr :=
  if cbField w = 0 ∧ modeField w = .pmem then .ok (i (caField w)) else .error .unusedField

/-- A command that uses CA and CB: M must be 0 (R65, R66). -/
def decodeCaCb (i : SlotNo → SlotNo → Instr) (w : Word) : Except DecodeError Instr :=
  if modeField w = .pmem then .ok (i (caField w) (cbField w)) else .error .unusedField

/-- A command that uses M only: CA and CB must be 0 (R65, R66). -/
def decodeMode (i : PayloadSource → Instr) (w : Word) : Except DecodeError Instr :=
  if caField w = 0 ∧ cbField w = 0 then .ok (i (modeField w)) else .error .unusedField

/-- The command a word stands for (R65), or why it is illegal (R66, R67). -/
def decode (w : Word) : Except DecodeError Instr :=
  if rsvField w ≠ 0 then .error .reservedBits else
  match opcField w with
  | 0x01#8 => decodeNoField .addr w
  | 0x02#8 => decodeNoField .mask w
  | 0x10#8 => decodeCa .cnew w
  | 0x11#8 => decodeCa .cpos w
  | 0x12#8 => decodeCa .cadv w
  | 0x13#8 => decodeCa .crem w
  | 0x14#8 => decodeCa .cshift w
  | 0x15#8 => decodeCaCb .ccmp w
  | 0x16#8 => decodeCaCb .csub w
  | 0x17#8 => decodeCa .cget w
  | 0x20#8 => decodeNoField .binit w
  | 0x21#8 => decodeNoField .brdbit w
  | 0x22#8 => decodeNoField .brdbits w
  | 0x23#8 => decodeNoField .beos w
  | 0x24#8 => decodeNoField .bget w
  | 0x30#8 => decodeMode .enc w
  | 0x31#8 => decodeNoField .dec w
  | _ => .error .unknownOpcode

/-- The M bit of a mode (R61). -/
def modeBit : PayloadSource → Nat
  | .pmem => 0
  | .bbs => 1

/-- `word = M << 12 | CB << 10 | CA << 8 | OPC`, with RSV = 0 (R61). -/
def packWord (m : PayloadSource) (cb ca : SlotNo) (opc : Nat) : Word :=
  BitVec.ofNat 32 ((modeBit m <<< 12) ||| (cb.val <<< 10) ||| (ca.val <<< 8) ||| opc)

/-- The word of a command, unused fields 0 (R61, R65). -/
def encode : Instr → Word
  | .addr => packWord .pmem 0 0 0x01
  | .mask => packWord .pmem 0 0 0x02
  | .cnew ca => packWord .pmem 0 ca 0x10
  | .cpos ca => packWord .pmem 0 ca 0x11
  | .cadv ca => packWord .pmem 0 ca 0x12
  | .crem ca => packWord .pmem 0 ca 0x13
  | .cshift ca => packWord .pmem 0 ca 0x14
  | .ccmp ca cb => packWord .pmem cb ca 0x15
  | .csub ca cb => packWord .pmem cb ca 0x16
  | .cget ca => packWord .pmem 0 ca 0x17
  | .binit => packWord .pmem 0 0 0x20
  | .brdbit => packWord .pmem 0 0 0x21
  | .brdbits => packWord .pmem 0 0 0x22
  | .beos => packWord .pmem 0 0 0x23
  | .bget => packWord .pmem 0 0 0x24
  | .enc m => packWord m 0 0 0x30
  | .dec => packWord .pmem 0 0 0x31

/-- The command word whose `nbits` low bits are `w`'s and whose other bits are 0 (every command is 32
bits long, R62). -/
def tableWord (nbits w : Nat) : Word := BitVec.ofNat 32 (w % 2 ^ nbits)

/-- What the decoder reads from an instruction given as the opcode table numbers its bits. -/
def decodeTableWord (nbits w : Nat) : Option Instr := (decode (tableWord nbits w)).toOption

end Sys2Proof
end

