-- ==== Sys2Proof/Config.lean ====
section
/-! DEFINITION. What an implementation fixes (R10 to R12) and the values the spec leaves free. -/

namespace Sys2Proof

/-- The OPEN parameters of the block. They are plain data held in the machine state, so that every
statement is about all of them (R10, R11, R12; log 1). -/
structure Params where
  /-- BUF_BYTES, the BBS buffer capacity in bytes (R10). -/
  bufBytes : Nat
  /-- PMEM_BYTES, the payload memory size in bytes (R11). -/
  pmemBytes : Nat
  /-- REG_BASE, the host-bus address of the register window (R12). -/
  regBase : Nat
  deriving DecidableEq, Repr, Inhabited

/-- The legal ranges of BUF_BYTES (R10) and PMEM_BYTES (R11). -/
abbrev Params.Legal (p : Params) : Prop :=
  1 ≤ p.bufBytes ∧ p.bufBytes ≤ 2 ^ 28 ∧ 1 ≤ p.pmemBytes ∧ p.pmemBytes ≤ 2 ^ 29 - 1

/-- DESIGN CHOICE (log 1): the instance State.reset is built with, the sizes of the spec's own test
vectors (95_test_vectors.md: BUF_BYTES = 2, PMEM_BYTES = 16), with the window at bus address 0. -/
def Params.default : Params := { bufBytes := 2, pmemBytes := 16, regBase := 0 }

/-- FREE VALUE (R34, I1, I14; log 4): the byte that PMEM holds at an address nothing has written since
a reset, drawn anew at each reset. First argument the reset count, second the address. -/
opaque Config.freePmem : Nat → Nat → Byte

/-- FREE VALUE (R30, I2; log 5): the byte that BUF holds at an index nothing has written since a
reset. First argument the reset count, second the index. -/
opaque Config.freeBuf : Nat → Nat → Byte

/-- FREE VALUE (R178, I3; log 8): how many of an abandoned command's PutPixel calls a reset leaves
done, capped by their number. The argument is the reset count. -/
opaque Config.freePutPrefix : Nat → Nat

/-- FREE VALUE (R178, I3; log 8): how many of the bytes an abandoned command would have removed from
SRC a reset leaves removed, capped by their number. The argument is the reset count. -/
opaque Config.freeSrcPrefix : Nat → Nat

end Sys2Proof
end

