-- ==== Sys2Proof/Machine/State.lean ====
section
/-! DEFINITION. The state: everything the spec gives the block (10_state.md R20), the raster and byte
source it borrows (20_memory.md R39, R44), the host agent (R70) and the model's own plain-data fields
(schedule, reset count, fault events). Also the reasons a step can stop. -/

namespace Sys2Proof.Machine

/-- A memory of bytes: (address, byte) pairs, addresses strictly rising. An unlisted address is one
that nothing has written since reset; it has no value of its own (logs 4, 5, 18). -/
abbrev Memory := List Host.Cell

/-- STATUS.CODE (R22, R151). Codes 9 to 15 are reserved and never produced. -/
inductive Code where
  /-- 0: success. -/
  | ok
  /-- 1: an address lies outside its space (R152). -/
  | outOfRange
  /-- 2: a cursor would leave [0, capacity] (R153). -/
  | invalidRange
  /-- 3: the cursor is already at its capacity (R154). -/
  | exhausted
  /-- 4: a read needed data that does not exist (R155). -/
  | endOfSource
  /-- 5: a count cannot be served (R156). -/
  | invalidArgument
  /-- 6: MASK with n > 8 (R158). -/
  | assertViolation
  /-- 7: an illegal word (R159). -/
  | illegalCommand
  /-- 8: reserved for the host, never raised by the block (R162). -/
  | unsupportedFormat
  deriving DecidableEq, Repr, Inhabited

/-- A BitCursor slot `{flat, cap}` (R27). -/
structure Cursor where
  flat : Word
  cap : Word
  deriving DecidableEq, Repr, Inhabited

/-- The four cursor slots (R27). -/
structure Slots where
  c0 : Cursor
  c1 : Cursor
  c2 : Cursor
  c3 : Cursor
  deriving DecidableEq, Repr, Inhabited

/-- The BBS state BUF, FILL and bcur.flat (R29). -/
structure Bbs where
  buf : Memory
  fill : Nat
  flat : Word
  deriving DecidableEq, Repr, Inhabited

/-- The BBS state together with SRC, what a bit read works on (R112). -/
structure Stream where
  bbs : Bbs
  src : List Byte
  deriving DecidableEq, Repr, Inhabited

/-- The latched copies cmd_l, a0_l, a1_l and the sampled raster dimensions W, H (R25). -/
structure Latch where
  cmd : Word
  a0 : Word
  a1 : Word
  w : Word
  h : Word
  deriving DecidableEq, Repr, Inhabited

/-- A pixel, four channels (R39). -/
structure Pixel where
  r : Byte
  g : Byte
  b : Byte
  a : Byte
  deriving DecidableEq, Repr, Inhabited

/-- A W x H raster (R39). Pixel (x, y) stands at position x * H + y of `pixels` (R128; log 16). -/
structure Raster where
  width : Word
  height : Word
  pixels : List Pixel
  deriving DecidableEq, Repr, Inhabited

/-- A PutPixel call (R40). -/
structure PutPixel where
  x : Nat
  y : Nat
  px : Pixel
  deriving DecidableEq, Repr, Inhabited

/-- MODEL's own (R165, I5, I6; log 10): whether AssertViolation and IllegalCommand have ever been
reported. No step clears them. -/
structure FaultEvents where
  assertViolation : Bool
  illegalCommand : Bool
  deriving DecidableEq, Repr, Inhabited

/-- The host registers (R21). -/
inductive HostReg where
  | cmd
  | arg0
  | arg1
  | res0
  | res1
  | status
  | cfgBuf
  | cfgPmem
  deriving DecidableEq, Repr, Inhabited

/-- What the host does (R70), and its two duties as owner of the borrowed resources: binding the byte
source (R47) and the raster (R180). A label is a number (log 11). -/
inductive HostAction where
  /-- `WR REG, #v`. -/
  | wr (reg : HostReg) (v : Word)
  /-- `RD REG`. -/
  | rd (reg : HostReg)
  /-- A bus write of `size` bytes at any address (R50, R52). -/
  | busWrite (addr size : Nat) (v : Word)
  /-- A bus read of `size` bytes at any address (R50, R52). -/
  | busRead (addr size : Nat)
  /-- `PW a, #v`: HostPmemWrite (R35). -/
  | pw (a : Nat) (v : Byte)
  /-- `PR a`: HostPmemRead (R35). -/
  | pr (a : Nat)
  /-- `WAIT`: read STATUS until BUSY = 0. -/
  | wait
  /-- `name:`, no action. -/
  | label (name : Nat)
  /-- `BOK name`: go to the label if the status the last WAIT saw is OK. -/
  | bok (name : Nat)
  /-- `BNOK name`: go to the label if the status the last WAIT saw is not OK. -/
  | bnok (name : Nat)
  /-- Replace SRC by a finite sequence (R47). -/
  | bindSource (bytes : List Byte)
  /-- Replace the raster (R43, R180). -/
  | bindRaster (r : Raster)
  deriving DecidableEq, Repr, Inhabited

/-- MODEL's own: the host agent (R7, R70; log 11). -/
structure HostAgent where
  /-- The host program, loaded from outside. -/
  program : List HostAction
  /-- The position of its next action. -/
  pc : Nat
  /-- The STATUS.CODE that the preceding WAIT saw. -/
  waited : Code
  /-- The values read so far, the latest first. -/
  reads : List Word
  deriving DecidableEq, Repr, Inhabited

/-- MODEL's own (log 2): who moves next. -/
inductive Turn where
  /-- The host performs its next action. -/
  | host
  /-- The core runs the command in progress, if there is one. -/
  | core
  /-- The reset input is asserted (R177). -/
  | assertReset
  /-- The reset input is released (R177). -/
  | releaseReset
  deriving DecidableEq, Repr, Inhabited

/-- Why the machine stops with a fault. No command faults: the block has no traps (R163) and its
failures are status codes (R165). -/
inductive Fault where
  /-- Raised by the host agent's BOK and BNOK when the host program holds no such label, to which R70
  gives no effect. Safe: the model stops, and no command is involved (log 12). -/
  | noSuchLabel (name : Nat)
  deriving DecidableEq, Repr, Inhabited

/-- Why the model gives a step no meaning (R165). -/
inductive Refusal where
  /-- An instruction without a meaning; no arm of exec answers it. Safe. -/
  | notModelled (mnemonic : String)
  /-- Raised by a host bus access that is not one aligned 32-bit word (R50, I12). Safe (log 13). -/
  | nonWordAccess
  /-- Raised by a host bus access outside the 4 KiB register window, which is not the block's (R53).
  Safe (log 13). -/
  | outsideWindow
  /-- Raised by bindRaster while BUSY = 1, and by ENC and DEC when the raster is not the one sampled at
  acceptance (R43, I13). Safe (log 14). -/
  | rasterChangedWhileBusy
  /-- Raised by bindSource while BUSY = 1 (R47, I13). Safe (log 14). -/
  | sourceChangedWhileBusy
  /-- Raised by bindRaster of something that is no W x H array (R39). Safe (log 15). -/
  | illFormedRaster
  deriving DecidableEq, Repr, Inhabited

/-- The whole state. -/
structure State where
  /-- BUF_BYTES, PMEM_BYTES and REG_BASE; CFG_BUF and CFG_PMEM read the first two (R21). -/
  cfg : Params
  /-- CMD: the last accepted command word (R21). -/
  cmd : Word
  arg0 : Word
  arg1 : Word
  res0 : Word
  res1 : Word
  /-- STATUS.CODE (R22). -/
  code : Code
  /-- STATUS.BUSY (R22). -/
  busy : Bool
  /-- What acceptance latched (R25). -/
  latch : Latch
  slots : Slots
  bbs : Bbs
  pmem : Memory
  /-- The raster, owned by the host and borrowed by ENC and DEC (R39). -/
  raster : Raster
  /-- SRC, owned by the host and consumed from its front (R44). -/
  src : List Byte
  /-- The reset input is asserted (R177). -/
  resetHeld : Bool
  /-- MODEL's own: how many resets there have been, the index of the free values (log 9). -/
  epoch : Nat
  /-- MODEL's own (log 10). -/
  events : FaultEvents
  /-- MODEL's own (log 11). -/
  host : HostAgent
  /-- MODEL's own: the turns to come; when none is left the core moves while BUSY = 1 and the host
  otherwise (log 2). -/
  turns : List Turn
  deriving DecidableEq, Repr, Inhabited

/-- The machine right after reset (R176), for given parameters. The raster and SRC are not block state
and are empty until the host binds them (log 7); the latched copies are unspecified and not observable
(log 6). -/
def State.resetWith (cfg : Params) : State where
  cfg := cfg
  cmd := 0
  arg0 := 0
  arg1 := 0
  res0 := 0
  res1 := 0
  code := .ok
  busy := false
  latch := { cmd := 0, a0 := 0, a1 := 0, w := 0, h := 0 }
  slots := { c0 := ⟨0, 0⟩, c1 := ⟨0, 0⟩, c2 := ⟨0, 0⟩, c3 := ⟨0, 0⟩ }
  bbs := { buf := [], fill := 0, flat := 0 }
  pmem := []
  raster := { width := 0, height := 0, pixels := [] }
  src := []
  resetHeld := false
  epoch := 0
  events := { assertViolation := false, illegalCommand := false }
  host := { program := [], pc := 0, waited := .ok, reads := [] }
  turns := []

/-- The machine right after reset (R176), with the parameter instance of log 1. -/
def State.reset : State := State.resetWith Params.default

end Sys2Proof.Machine
end

