-- ==== Sys2Proof/Machine/Flags.lean ====
section
/-! DEFINITION. STATUS, the only status state: the block has no condition-code flags (10_state.md R22,
R32). -/

namespace Sys2Proof.Machine

/-- The number of a status code (60_exceptions.md R151). -/
def Code.toBits : Code → BitVec 4
  | .ok => 0
  | .outOfRange => 1
  | .invalidRange => 2
  | .exhausted => 3
  | .endOfSource => 4
  | .invalidArgument => 5
  | .assertViolation => 6
  | .illegalCommand => 7
  | .unsupportedFormat => 8

/-- The STATUS word: BUSY in bit 31, bits 30:4 hardwired 0, CODE in bits 3:0 (R22). -/
def statusWord (busy : Bool) (code : Code) : Word :=
  (if busy then 1#1 else 0#1) ++ 0#27 ++ code.toBits

/-- Recording a code as a fault event: only AssertViolation and IllegalCommand are recorded (R165). -/
def FaultEvents.record (e : FaultEvents) : Code → FaultEvents
  | .assertViolation => { e with assertViolation := true }
  | .illegalCommand => { e with illegalCommand := true }
  | .ok | .outOfRange | .invalidRange | .exhausted | .endOfSource | .invalidArgument
  | .unsupportedFormat => e

end Sys2Proof.Machine
end

