-- ==== Sys2Proof/Machine/Bits.lean ====
section
/-! DEFINITION. Bit helpers: the MSB-first bit order of a byte (00_scope.md R15), the low-order mask
(R18), two's complement (R16), embedding (43_codec.md R131) and packing (42_bbs.md R117). -/

namespace Sys2Proof.Machine

/-- Stream bit `o` of a byte: `(byte >> (7 - o)) & 1`, so bit 0 is the most significant (R15). -/
def bitAt (b : Byte) (o : Nat) : Bool := ((b >>> (7 - o)) &&& 1#8) == 1#8

/-- A bit as a byte, 0 or 1. -/
def bitByte (b : Bool) : Byte := if b then 1#8 else 0#8

/-- A bit as a word, 0 or 1. -/
def bitWord (b : Bool) : Word := if b then 1#32 else 0#32

/-- `mask(n) = (1 << n) - 1` (R18), zero-extended to a word (R88). -/
def maskWord (n : Nat) : Word := (1#32 <<< n) - 1#32

/-- `sext_32`: a 32-bit pattern read in two's complement (R16). -/
def sext32 (v : Word) : Int := if v.getLsbD 31 then (v.toNat : Int) - 2 ^ 32 else (v.toNat : Int)

/-- Embedding a bit into a channel value: `(c & 0xFE) | bit` (R131). -/
def embedBit (c : Byte) (b : Bool) : Byte := (c &&& 0xFE#8) ||| bitByte b

/-- The 3-bit group of a pixel's LSBs, R its most significant bit (R137). -/
def group (r g b : Byte) : Byte := ((r &&& 1#8) <<< 2) ||| ((g &&& 1#8) <<< 1) ||| (b &&& 1#8)

/-- Bit `j` of a group: `(grp >> (2 - j)) & 1` (R137). -/
def groupBit (grp : Byte) (j : Nat) : Bool := ((grp >>> (2 - j)) &&& 1#8) == 1#8

/-- A bit at stream position `i & 7` of a byte: `bit << (7 - (i & 7))` (R116, R137). -/
def placeBit (b : Bool) (i : Nat) : Byte := bitByte b <<< (7 - (i &&& 7))

end Sys2Proof.Machine
end

