-- ==== Sys2Proof/Machine/Operands.lean ====
section
/-! DEFINITION. The operand forms: the latched ARG0 and ARG1, unsigned or (CSHIFT) signed, never masked
or scaled (30_encoding.md R63), and the slots that CA and CB name (R64). -/

namespace Sys2Proof.Machine

/-- ARG0 as latched, unsigned (R25, R63). -/
def State.operand0 (s : State) : Nat := s.latch.a0.toNat

/-- ARG1 as latched, unsigned (R25, R63). -/
def State.operand1 (s : State) : Nat := s.latch.a1.toNat

/-- ARG0 as latched, read as `sext_32` (R63, R100). -/
def State.signedOperand0 (s : State) : Int := sext32 s.latch.a0

/-- `slot[c]` (R27, R64). -/
def Slots.get (t : Slots) (c : SlotNo) : Cursor :=
  match c with
  | 0 => t.c0
  | 1 => t.c1
  | 2 => t.c2
  | 3 => t.c3

/-- Writing `slot[c]` (R27). -/
def Slots.set (t : Slots) (c : SlotNo) (v : Cursor) : Slots :=
  match c with
  | 0 => { t with c0 := v }
  | 1 => { t with c1 := v }
  | 2 => { t with c2 := v }
  | 3 => { t with c3 := v }

/-- The slot a field of the command word names (R64). -/
def State.slot (s : State) (c : SlotNo) : Cursor := s.slots.get c

/-- The state with a slot written. -/
def State.setSlot (s : State) (c : SlotNo) (v : Cursor) : State := { s with slots := s.slots.set c v }

end Sys2Proof.Machine
end

