-- ==== Sys2Proof/Machine/Ops.lean ====
section
/-! DEFINITION. The operations every meaning is built from: PMEM and BUF bytes, the byte-source and
pixel ports (20_memory.md), acceptance and completion of a command (10_state.md R25). Completion with
a code other than OK is the block's only form of an exception; there is no trap entry and no return
(60_exceptions.md R163, R164). -/

namespace Sys2Proof.Machine

/-! ### Memories -/

/-- The byte listed at an address, none if nothing has written it. -/
def Memory.load? : Memory → Nat → Option Byte
  | [], _ => none
  | (a', b) :: m, a => if a' = a then some b else Memory.load? m a

/-- Writing one byte, keeping the addresses strictly rising. -/
def Memory.store : Memory → Nat → Byte → Memory
  | [], a, v => [(a, v)]
  | (a', b) :: m, a, v =>
    if a < a' then (a, v) :: (a', b) :: m
    else if a = a' then (a, v) :: m
    else (a', b) :: Memory.store m a v

/-- The canonical form: addresses strictly rising. -/
abbrev Memory.wf (m : Memory) : Prop := m.Pairwise fun c d => c.1 < d.1

/-- Every listed address lies below `n`. -/
abbrev Memory.below (m : Memory) (n : Nat) : Prop := ∀ c ∈ m, c.1 < n

/-- Writing consecutive bytes from an address, in increasing order. -/
def Memory.storeAll (m : Memory) (base : Nat) : List Byte → Memory
  | [] => m
  | b :: bs => Memory.storeAll (Memory.store m base b) (base + 1) bs

/-- PmemRead(a): the byte written last, or the value drawn at reset (R17, R34). -/
def pmemRead (epoch : Nat) (m : Memory) (a : Nat) : Byte :=
  (Memory.load? m a).getD (Config.freePmem epoch a)

/-- PmemWrite(a, v) (R17). -/
def pmemWrite (m : Memory) (a : Nat) (v : Byte) : Memory := Memory.store m a v

/-- Clearing `n` PMEM bytes from `base`, a fresh output buffer (R116, R137). -/
def pmemClear (m : Memory) (base n : Nat) : Memory :=
  (List.range n).foldl (fun m j => pmemWrite m (base + j) 0#8) m

/-- `PmemWrite(a, PmemRead(a) | (bit << (7 - (i & 7))))` (R116, R137). -/
def pmemOrBit (epoch : Nat) (m : Memory) (a i : Nat) (b : Bool) : Memory :=
  pmemWrite m a (pmemRead epoch m a ||| placeBit b i)

/-- BUF[i]: the byte written last, or an unspecified one (R29, R30). -/
def bufRead (epoch : Nat) (m : Memory) (i : Nat) : Byte :=
  (Memory.load? m i).getD (Config.freeBuf epoch i)

/-- The PMEM byte at an address of this state. -/
def State.pmemByte (s : State) (a : Nat) : Byte := pmemRead s.epoch s.pmem a

/-! ### Byte-source port -/

/-- SrcEmpty(): the non-destructive probe (R46). -/
def srcEmpty (src : List Byte) : Bool := src.isEmpty

/-- SrcRead(k): the first min(k, |SRC|) bytes, and SRC without them (R45). -/
def srcRead (k : Nat) (src : List Byte) : List Byte × List Byte := (src.take k, src.drop k)

/-- The BBS state and SRC of a state. -/
def State.stream (s : State) : Stream := { bbs := s.bbs, src := s.src }

/-! ### Pixel port -/

/-- The raster is a W x H array (R39). -/
abbrev Raster.wf (r : Raster) : Prop := r.pixels.length = r.width.toNat * r.height.toNat

/-- The pixels in scan order: x outer, y inner (43_codec.md R128). -/
def scanOrder (w h : Nat) : List (Nat × Nat) :=
  (List.range w).flatMap fun x => (List.range h).map fun y => (x, y)

/-- GetPixel(x, y) (R40); the core calls it inside the raster only. -/
def Raster.getPixel (r : Raster) (x y : Nat) : Pixel :=
  r.pixels.getD (x * r.height.toNat + y) default

/-- PutPixel(x, y, p) (R40): replaces all four channels. -/
def Raster.putPixel (r : Raster) (x y : Nat) (p : Pixel) : Raster :=
  { r with pixels := r.pixels.set (x * r.height.toNat + y) p }

/-- A sequence of PutPixel calls, in order. -/
def Raster.putAll (r : Raster) (puts : List PutPixel) : Raster :=
  puts.foldl (fun r p => r.putPixel p.x p.y p.px) r

/-- The raster is the one whose dimensions acceptance sampled (R25, R43). -/
abbrev State.RasterBorrowed (s : State) : Prop :=
  s.raster.wf ∧ s.raster.width = s.latch.w ∧ s.raster.height = s.latch.h

/-! ### The command cycle -/

/-- Acceptance of a command word: latch it and the operands, sample the raster's dimensions, set BUSY
(R25). -/
def State.accept (s : State) (w : Word) : State :=
  { s with
    cmd := w
    busy := true
    latch := { cmd := w, a0 := s.arg0, a1 := s.arg1, w := s.raster.width, h := s.raster.height } }

/-- Completion with a code: STATUS.CODE is set and BUSY cleared (R25), and a programming error or
illegal word is recorded (R165). The command's results are written before, in the same step. -/
def State.complete (s : State) (c : Code) : State :=
  { s with code := c, busy := false, events := s.events.record c }

/-- `finish`: the command ends with OK (R17). -/
def finish (s : State) : Host.Outcome State Fault Refusal := .next (s.complete .ok)

/-- `raise c`: the command ends with code c; the machine goes on (R17, R163). -/
def raise (c : Code) (s : State) : Host.Outcome State Fault Refusal := .next (s.complete c)

/-- The state with RES0 written. -/
def State.setRes0 (s : State) (v : Word) : State := { s with res0 := v }

/-- The state with RES0 and RES1 written. -/
def State.setRes (s : State) (v0 v1 : Word) : State := { s with res0 := v0, res1 := v1 }

/-- An illegal command word completes at once with IllegalCommand and changes nothing else
(30_encoding.md R67). -/
def execIllegal (s : State) : Host.Outcome State Fault Refusal := raise .illegalCommand s

end Sys2Proof.Machine
end

