-- ==== Sys2Proof/Machine/Bbs.lean ====
section
/-! DEFINITION. The buffered bit-stream reader: BbsReadBit, SlideRefill and BINIT, BRDBIT, BRDBITS,
BEOS, BGET (42_bbs.md). -/

namespace Sys2Proof.Machine

/-- The slide of SlideRefill: `BUF[i] <- BUF[rs + i]` for i in 0 .. ret-1, in increasing i (R113). -/
def slideBytes (epoch rs ret : Nat) (buf : Memory) : Memory :=
  (List.range ret).foldl (fun m i => Memory.store m i (bufRead epoch m (rs + i))) buf

/-- SlideRefill() (R113). Subtraction on naturals is the rule's `max(FILL - rs, 0)`. -/
def slideRefill (cfg : Params) (epoch : Nat) (st : Stream) : Stream :=
  let rs := st.bbs.flat.toNat >>> 3
  let ret := st.bbs.fill - rs
  let read := srcRead (cfg.bufBytes - ret) st.src
  { bbs :=
      { buf := Memory.storeAll (slideBytes epoch rs ret st.bbs.buf) ret read.1
        fill := ret + read.1.length
        flat := BitVec.ofNat 32 (st.bbs.flat.toNat - 8 * rs) }
    src := read.2 }

/-- The window a read works in: refilled when the cursor is at or past its end, none when it is and
SRC is empty (R112, R115). -/
def readyWindow (cfg : Params) (epoch : Nat) (st : Stream) : Option Stream :=
  if st.bbs.flat.toNat ≥ st.bbs.fill * 8 then
    if srcEmpty st.src then none else some (slideRefill cfg epoch st)
  else some st

/-- BbsReadBit(): the bit and the stream after it, or none for the marker EOS, which changes nothing
(R112, R127). -/
def readBit (cfg : Params) (epoch : Nat) (st : Stream) : Option (Bool × Stream) :=
  match readyWindow cfg epoch st with
  | none => none
  | some st =>
    let byte := st.bbs.flat.toNat >>> 3
    let o := st.bbs.flat.toNat &&& 7
    some (bitAt (bufRead epoch st.bbs.buf byte) o,
      { st with bbs := { st.bbs with flat := st.bbs.flat + 1#32 } })

/-- The state with the BBS state and SRC replaced. -/
def State.setStream (s : State) (st : Stream) : State := { s with bbs := st.bbs, src := st.src }

/-- BINIT (R110). -/
def execBinit (s : State) : Host.Outcome State Fault Refusal :=
  let start := s.operand0
  if start > s.cfg.bufBytes * 8 then raise .invalidRange s
  else
    let read := if srcEmpty s.src then ([], s.src) else srcRead s.cfg.bufBytes s.src
    finish (s.setStream
      { bbs :=
          { buf := Memory.storeAll s.bbs.buf 0 read.1
            fill := read.1.length
            flat := BitVec.ofNat 32 start }
        src := read.2 })

/-- BRDBIT (R114). -/
def execBrdbit (s : State) : Host.Outcome State Fault Refusal :=
  match readBit s.cfg s.epoch s.stream with
  | none => raise .endOfSource s
  | some (b, st) => finish ((s.setStream st).setRes0 (bitWord b))

/-- What a run of bit reads into PMEM leaves: the number delivered, whether all came, PMEM, the
stream. -/
structure ReadBitsResult where
  count : Nat
  all : Bool
  pmem : Memory
  st : Stream
  deriving DecidableEq, Repr

/-- The loop of BRDBITS from bit `i`, `left` bits to go (R116): bit i goes to byte `dst + (i >> 3)`,
MSB first (R117). -/
def readBitsLoop (cfg : Params) (epoch dst : Nat) : Nat → Nat → Memory → Stream → ReadBitsResult
  | 0, i, m, st => { count := i, all := true, pmem := m, st := st }
  | left + 1, i, m, st =>
    match readBit cfg epoch st with
    | none => { count := i, all := false, pmem := m, st := st }
    | some (b, st') =>
      readBitsLoop cfg epoch dst left (i + 1) (pmemOrBit epoch m (dst + (i >>> 3)) i b) st'

/-- BRDBITS (R116 to R120): the progress count is written on both exits after the operand check
(R24, R118). -/
def execBrdbits (s : State) : Host.Outcome State Fault Refusal :=
  let n := s.operand0
  let dst := s.operand1
  let nb := (n + 7) >>> 3
  if dst + nb > s.cfg.pmemBytes then raise .invalidArgument s
  else
    let r := readBitsLoop s.cfg s.epoch dst n 0 (pmemClear s.pmem dst nb) s.stream
    let t := { (s.setStream r.st).setRes0 (BitVec.ofNat 32 r.count) with pmem := r.pmem }
    if r.all then finish t else raise .endOfSource t

/-- BEOS (R121). -/
def execBeos (s : State) : Host.Outcome State Fault Refusal :=
  finish (s.setRes0 (bitWord (srcEmpty s.src)))

/-- BGET (R124). -/
def execBget (s : State) : Host.Outcome State Fault Refusal :=
  finish (s.setRes s.bbs.flat (BitVec.ofNat 32 s.bbs.fill))

end Sys2Proof.Machine
end

