-- ==== Sys2Proof/Machine/Codec.lean ====
section
/-! DEFINITION. The LSB pixel-channel embed/extract unit: ENC and DEC (43_codec.md). -/

namespace Sys2Proof.Machine

/-- The colour channels, in slot order R, G, B (R129). -/
inductive Channel where
  | red
  | green
  | blue
  deriving DecidableEq, Repr

/-- A colour channel of a pixel. -/
def Pixel.channel (p : Pixel) : Channel → Byte
  | .red => p.r
  | .green => p.g
  | .blue => p.b

/-- A pixel with one colour channel replaced; alpha is kept (R131). -/
def Pixel.setChannel (p : Pixel) (c : Channel) (v : Byte) : Pixel :=
  match c with
  | .red => { p with r := v }
  | .green => { p with g := v }
  | .blue => { p with b := v }

/-- A pixel is transparent when its alpha is 0 (R129). -/
abbrev Pixel.transparent (p : Pixel) : Prop := p.a = 0#8

/-- PayloadBit(k) (R130): from PMEM, or the next bit of the BBS stream, which may have ended. PMEM is
the one at acceptance, which ENC does not write (R147). -/
def payloadBit (m : PayloadSource) (s : State) (k : Nat) (st : Stream) : Option (Bool × Stream) :=
  match m with
  | .pmem => some (bitAt (s.pmemByte (k >>> 3)) (k &&& 7), st)
  | .bbs => readBit s.cfg s.epoch st

/-- The work on one pixel: its channels so far, the payload bit index, the stream, whether the stream
ended. -/
structure PixelWork where
  px : Pixel
  k : Nat
  st : Stream
  eos : Bool
  deriving DecidableEq, Repr

/-- One channel of an opaque pixel in ENC (R132): nothing once k = N or the stream has ended. -/
def embedChannel (m : PayloadSource) (s : State) (N : Nat) (wk : PixelWork) (c : Channel) : PixelWork :=
  if wk.eos = true ∨ wk.k = N then wk
  else
    match payloadBit m s wk.k wk.st with
    | none => { wk with eos := true }
    | some (b, st') =>
      { px := wk.px.setChannel c (embedBit (wk.px.channel c) b), k := wk.k + 1, st := st', eos := false }

/-- The three channels of an opaque pixel, R, then G, then B (R132). -/
def embedPixel (m : PayloadSource) (s : State) (N : Nat) (px : Pixel) (k : Nat) (st : Stream) : PixelWork :=
  [Channel.red, .green, .blue].foldl (embedChannel m s N) { px := px, k := k, st := st, eos := false }

/-- ENC's session (R31): the payload bit index, the stream, the raster, and the PutPixel calls made so
far in order (for R178). -/
structure EncSession where
  k : Nat
  st : Stream
  raster : Raster
  puts : List PutPixel
  deriving DecidableEq, Repr

/-- PutPixel(x, y, p) in a session. -/
def EncSession.put (e : EncSession) (x y : Nat) (p : Pixel) : EncSession :=
  { e with raster := e.raster.putPixel x y p, puts := e.puts ++ [⟨x, y, p⟩] }

/-- The scan of ENC over the pixels left (R132). A pixel is written once, when it is done; when the
stream ends in it, only if it received a bit (R134). -/
def encScan (m : PayloadSource) (s : State) (N : Nat) : List (Nat × Nat) → EncSession → EncSession × Code
  | [], e => (e, if e.k = N then .ok else .endOfSource)
  | (x, y) :: rest, e =>
    if e.k = N then (e, .ok)
    else
      let px := e.raster.getPixel x y
      if px.transparent then encScan m s N rest e
      else
        let wk := embedPixel m s N px e.k e.st
        let e' := { e with k := wk.k, st := wk.st }
        if wk.eos then (if wk.k = e.k then e' else e'.put x y wk.px, .endOfSource)
        else encScan m s N rest (e'.put x y wk.px)

/-- The whole scan of an ENC of `L` bytes from a state (R128, R132). -/
def encRun (m : PayloadSource) (s : State) : EncSession × Code :=
  encScan m s (8 * s.operand0) (scanOrder s.latch.w.toNat s.latch.h.toNat)
    { k := 0, st := s.stream, raster := s.raster, puts := [] }

/-- The largest L of an ENC: PMEM_BYTES from PMEM, 2^29 - 1 from the BBS (R132, R136). -/
def encLimit (m : PayloadSource) (cfg : Params) : Nat :=
  match m with
  | .pmem => cfg.pmemBytes
  | .bbs => 2 ^ 29 - 1

/-- ENC (R132 to R136): RES0 is the number of bits embedded on every exit after the operand check. -/
def execEnc (m : PayloadSource) (s : State) : Host.Outcome State Fault Refusal :=
  if s.operand0 > encLimit m s.cfg then raise .invalidArgument s
  else if ¬ s.RasterBorrowed then .refused .rasterChangedWhileBusy
  else
    let r := encRun m s
    raise r.2 { (s.setStream r.1.st).setRes0 (BitVec.ofNat 32 r.1.k) with raster := r.1.raster }

/-- DEC's session (R31): the payload bit index and PMEM. -/
structure DecSession where
  k : Nat
  pmem : Memory
  deriving DecidableEq, Repr

/-- One bit of a pixel's group in DEC (R137): bits past N are discarded. -/
def extractBit (epoch N : Nat) (grp : Byte) (d : DecSession) (j : Nat) : DecSession :=
  if d.k = N then d
  else { k := d.k + 1, pmem := pmemOrBit epoch d.pmem (d.k >>> 3) d.k (groupBit grp j) }

/-- The group of an opaque pixel, bit by bit (R137). -/
def extractPixel (epoch N : Nat) (px : Pixel) (d : DecSession) : DecSession :=
  [0, 1, 2].foldl (extractBit epoch N (group px.r px.g px.b)) d

/-- The scan of DEC over the pixels left (R137). -/
def decScan (epoch N : Nat) (r : Raster) : List (Nat × Nat) → DecSession → DecSession × Code
  | [], d => (d, if d.k = N then .ok else .endOfSource)
  | (x, y) :: rest, d =>
    if d.k = N then (d, .ok)
    else
      let px := r.getPixel x y
      if px.transparent then decScan epoch N r rest d
      else decScan epoch N r rest (extractPixel epoch N px d)

/-- The whole scan of a DEC of `L` bytes from a state, into a cleared output (R137). -/
def decRun (s : State) : DecSession × Code :=
  decScan s.epoch (8 * s.operand0) s.raster (scanOrder s.latch.w.toNat s.latch.h.toNat)
    { k := 0, pmem := pmemClear s.pmem 0 s.operand0 }

/-- DEC (R137 to R143): RES0 is the number of bits extracted on every exit after the operand check. -/
def execDec (s : State) : Host.Outcome State Fault Refusal :=
  if s.operand0 > s.cfg.pmemBytes then raise .invalidArgument s
  else if ¬ s.RasterBorrowed then .refused .rasterChangedWhileBusy
  else
    let r := decRun s
    raise r.2 { s.setRes0 (BitVec.ofNat 32 r.1.k) with pmem := r.1.pmem }

end Sys2Proof.Machine
end

