-- ==== Sys2Proof/Machine/Agu.lean ====
section
/-! DEFINITION. The bit-address generator: ADDR and MASK (40_agu.md). -/

namespace Sys2Proof.Machine

/-- The byte_offset of a flat index (R86). -/
def byteOffset (flat : Word) : Word := flat >>> 3

/-- The bit_offset of a flat index, MSB-0 within the byte (R86). -/
def bitOffset (flat : Word) : Word := flat &&& 7#32

/-- ADDR (R86). -/
def execAddr (s : State) : Host.Outcome State Fault Refusal :=
  let flat := s.latch.a0
  let len := s.latch.a1
  if (byteOffset flat).toNat ≥ len.toNat then raise .outOfRange s
  else finish (s.setRes (byteOffset flat) (bitOffset flat))

/-- MASK (R88). -/
def execMask (s : State) : Host.Outcome State Fault Refusal :=
  let n := s.operand0
  if n > 8 then raise .assertViolation s
  else finish (s.setRes0 (maskWord n))

end Sys2Proof.Machine
end

