-- ==== Sys2Proof/Machine/Cursor.lean ====
section
/-! DEFINITION. The bit-cursor sequencer: CNEW, CPOS, CADV, CREM, CSHIFT, CCMP, CSUB, CGET
(41_cursor.md). -/

namespace Sys2Proof.Machine

/-- CNEW (R90). -/
def execCnew (ca : SlotNo) (s : State) : Host.Outcome State Fault Refusal :=
  let cap := s.latch.a0
  let start := s.latch.a1
  if start.toNat > cap.toNat then raise .invalidRange s
  else finish (s.setSlot ca { flat := start, cap := cap })

/-- CPOS (R93, R94). -/
def execCpos (ca : SlotNo) (s : State) : Host.Outcome State Fault Refusal :=
  let a := s.slot ca
  if a.flat.toNat ≥ a.cap.toNat then raise .outOfRange s
  else finish (s.setRes (byteOffset a.flat) (bitOffset a.flat))

/-- CADV: the address before advancing, then flat + 1 (R95). -/
def execCadv (ca : SlotNo) (s : State) : Host.Outcome State Fault Refusal :=
  let a := s.slot ca
  if a.flat = a.cap then raise .exhausted s
  else finish ((s.setRes (byteOffset a.flat) (bitOffset a.flat)).setSlot ca { a with flat := a.flat + 1#32 })

/-- CREM (R98). -/
def execCrem (ca : SlotNo) (s : State) : Host.Outcome State Fault Refusal :=
  let a := s.slot ca
  finish (s.setRes0 (BitVec.ofNat 32 (a.cap.toNat - a.flat.toNat)))

/-- CSHIFT: the sum is a mathematical integer (R100). -/
def execCshift (ca : SlotNo) (s : State) : Host.Outcome State Fault Refusal :=
  let a := s.slot ca
  let t : Int := a.flat.toNat + s.signedOperand0
  if t < 0 ∨ t > a.cap.toNat then raise .invalidRange s
  else finish (s.setSlot ca { a with flat := BitVec.ofInt 32 t })

/-- The order of two flat indices: 0, 1 or -1 in two's complement (R103). -/
def cursorOrder (a b : Cursor) : Word :=
  if a.flat = b.flat then 0x00000000#32
  else if a.flat.toNat > b.flat.toNat then 0x00000001#32
  else 0xFFFFFFFF#32

/-- CCMP: order by flat alone, capacities compared separately (R102, R103). -/
def execCcmp (ca cb : SlotNo) (s : State) : Host.Outcome State Fault Refusal :=
  let a := s.slot ca
  let b := s.slot cb
  finish (s.setRes (cursorOrder a b) (bitWord (a.cap == b.cap)))

/-- CSUB: the exact difference, narrowed to 32 bits, and the borrow (R105). -/
def execCsub (ca cb : SlotNo) (s : State) : Host.Outcome State Fault Refusal :=
  let a := s.slot ca
  let b := s.slot cb
  let d : Int := (a.flat.toNat : Int) - b.flat.toNat
  finish (s.setRes (BitVec.ofInt 32 d) (bitWord (decide (d < 0))))

/-- CGET (R107). -/
def execCget (ca : SlotNo) (s : State) : Host.Outcome State Fault Refusal :=
  let a := s.slot ca
  finish (s.setRes a.flat a.cap)

end Sys2Proof.Machine
end

