-- ==== Sys2Proof/Machine/Dispatch.lean ====
section
/-! DEFINITION. One arm per command, each a direct call of its meaning. -/

namespace Sys2Proof.Machine

/-- The meaning of a command in the state its acceptance left. -/
def exec (i : Instr) (s : State) : Host.Outcome State Fault Refusal :=
  match i with
  -- AGU
  | .addr => Sys2Proof.Machine.execAddr s
  | .mask => Sys2Proof.Machine.execMask s
  -- CSQ
  | .cnew ca => Sys2Proof.Machine.execCnew ca s
  | .cpos ca => Sys2Proof.Machine.execCpos ca s
  | .cadv ca => Sys2Proof.Machine.execCadv ca s
  | .crem ca => Sys2Proof.Machine.execCrem ca s
  | .cshift ca => Sys2Proof.Machine.execCshift ca s
  | .ccmp ca cb => Sys2Proof.Machine.execCcmp ca cb s
  | .csub ca cb => Sys2Proof.Machine.execCsub ca cb s
  | .cget ca => Sys2Proof.Machine.execCget ca s
  -- BBS
  | .binit => Sys2Proof.Machine.execBinit s
  | .brdbit => Sys2Proof.Machine.execBrdbit s
  | .brdbits => Sys2Proof.Machine.execBrdbits s
  | .beos => Sys2Proof.Machine.execBeos s
  | .bget => Sys2Proof.Machine.execBget s
  -- CODEC
  | .enc m => Sys2Proof.Machine.execEnc m s
  | .dec => Sys2Proof.Machine.execDec s

end Sys2Proof.Machine
end

