-- ==== Sys2Proof/Machine/HostPort.lean ====
section
/-! DEFINITION. The core's turn and what comes from outside the block: the host bus and PMEM port
(20_memory.md R35, R50 to R53), the host's actions (30_encoding.md R70), and the reset input
(70_reset_and_hazards.md R177, R178). -/

namespace Sys2Proof.Machine

/-! ### The core -/

/-- The core executes the command it latched: the meaning of a legal word (R66), IllegalCommand for
any other (R67). -/
def coreTurn (s : State) : Host.Outcome State Fault Refusal :=
  match decode s.latch.cmd with
  | .ok i => exec i s
  | .error _ => execIllegal s

/-! ### Registers -/

/-- Byte offset of a register in the window (R21). -/
def regOffset : HostReg → Nat
  | .cmd => 0x00
  | .arg0 => 0x04
  | .arg1 => 0x08
  | .res0 => 0x0C
  | .res1 => 0x10
  | .status => 0x14
  | .cfgBuf => 0x18
  | .cfgPmem => 0x1C

/-- The register at an offset of the window, none at a reserved offset (R21, R52). -/
def regAt (off : Nat) : Option HostReg :=
  [HostReg.cmd, .arg0, .arg1, .res0, .res1, .status, .cfgBuf, .cfgPmem].find? fun r => regOffset r == off

/-- What a register reads as; a reserved offset reads 0 (R21, R22, R52). -/
def State.readReg (s : State) : Option HostReg → Word
  | some .cmd => s.cmd
  | some .arg0 => s.arg0
  | some .arg1 => s.arg1
  | some .res0 => s.res0
  | some .res1 => s.res1
  | some .status => statusWord s.busy s.code
  | some .cfgBuf => BitVec.ofNat 32 s.cfg.bufBytes
  | some .cfgPmem => BitVec.ofNat 32 s.cfg.pmemBytes
  | none => 0

/-- A register write, none when the bus stalls: a CMD write while BUSY = 1 (R25, R51). Writes to
read-only registers and reserved offsets, and all writes while reset is asserted, have no effect
(R52, R177). -/
def State.writeReg (s : State) (v : Word) : Option HostReg → Option State
  | some .cmd => if s.resetHeld then some s else if s.busy then none else some (s.accept v)
  | some .arg0 => some (if s.resetHeld then s else { s with arg0 := v })
  | some .arg1 => some (if s.resetHeld then s else { s with arg1 := v })
  | some .res0 | some .res1 | some .status | some .cfgBuf | some .cfgPmem | none => some s

/-- The size of the register window, 4 KiB (R52, R53). -/
def windowBytes : Nat := 4096

/-- The window offset of a bus access: one aligned 32-bit word inside the window, anything else is
refused (R50, R53; log 13). -/
def State.busOffset (s : State) (addr size : Nat) : Except Refusal Nat :=
  if addr < s.cfg.regBase ∨ addr ≥ s.cfg.regBase + windowBytes then .error .outsideWindow
  else if size ≠ 4 ∨ (addr - s.cfg.regBase) % 4 ≠ 0 then .error .nonWordAccess
  else .ok (addr - s.cfg.regBase)

/-! ### Host actions -/

/-- The host goes on to its next action. -/
def State.hostNext (s : State) : State := { s with host := { s.host with pc := s.host.pc + 1 } }

/-- The host has read a value and goes on. -/
def State.hostGot (s : State) (v : Word) : State :=
  { s with host := { s.host with pc := s.host.pc + 1, reads := v :: s.host.reads } }

/-- A bus write; a stalled one is tried again at the host's next turn (R51; log 22). -/
def hostWrite (addr size : Nat) (v : Word) (s : State) : Host.Outcome State Fault Refusal :=
  match s.busOffset addr size with
  | .error e => .refused e
  | .ok off =>
    match s.writeReg v (regAt off) with
    | none => .next s
    | some t => .next t.hostNext

/-- A bus read: it never stalls and has no side effect on the block (R51, R52). -/
def hostRead (addr size : Nat) (s : State) : Host.Outcome State Fault Refusal :=
  match s.busOffset addr size with
  | .error e => .refused e
  | .ok off => .next (s.hostGot (s.readReg (regAt off)))

/-- HostPmemWrite (R35): it stalls while BUSY = 1, and has no effect beyond PMEM or while reset is
asserted (R177). -/
def hostPmemWrite (a : Nat) (v : Byte) (s : State) : Host.Outcome State Fault Refusal :=
  if s.busy then .next s
  else if s.resetHeld = true ∨ a ≥ s.cfg.pmemBytes then .next s.hostNext
  else .next { s with pmem := pmemWrite s.pmem a v }.hostNext

/-- HostPmemRead (R35): it stalls while BUSY = 1, and reads 0 beyond PMEM. -/
def hostPmemRead (a : Nat) (s : State) : Host.Outcome State Fault Refusal :=
  if s.busy then .next s
  else .next (s.hostGot (if a < s.cfg.pmemBytes then (s.pmemByte a).setWidth 32 else 0))

/-- WAIT: one read of STATUS; the host goes on when it sees BUSY = 0 (R70). -/
def hostWait (s : State) : Host.Outcome State Fault Refusal :=
  if s.busy then .next s
  else .next { s with host := { s.host with pc := s.host.pc + 1, waited := s.code } }

/-- Continue at a label of the host program (R70; log 12). -/
def hostJump (name : Nat) (s : State) : Host.Outcome State Fault Refusal :=
  match s.host.program.findIdx? (fun a => a == .label name) with
  | some i => .next { s with host := { s.host with pc := i } }
  | none => .fault (.noSuchLabel name)

/-- Replacing SRC, while BUSY = 0 only (R47). BUF, FILL and bcur are not changed. -/
def hostBindSource (bytes : List Byte) (s : State) : Host.Outcome State Fault Refusal :=
  if s.busy then .refused .sourceChangedWhileBusy else .next { s with src := bytes }.hostNext

/-- Replacing the raster by a W x H array, while BUSY = 0 only (R39, R43). -/
def hostBindRaster (r : Raster) (s : State) : Host.Outcome State Fault Refusal :=
  if s.busy then .refused .rasterChangedWhileBusy
  else if r.wf then .next { s with raster := r }.hostNext
  else .refused .illFormedRaster

/-- A host action (R70). -/
def hostDo (a : HostAction) (s : State) : Host.Outcome State Fault Refusal :=
  match a with
  | .wr reg v => hostWrite (s.cfg.regBase + regOffset reg) 4 v s
  | .rd reg => hostRead (s.cfg.regBase + regOffset reg) 4 s
  | .busWrite addr size v => hostWrite addr size v s
  | .busRead addr size => hostRead addr size s
  | .pw a v => hostPmemWrite a v s
  | .pr a => hostPmemRead a s
  | .wait => hostWait s
  | .label _ => .next s.hostNext
  | .bok name => if s.host.waited = .ok then hostJump name s else .next s.hostNext
  | .bnok name => if s.host.waited = .ok then .next s.hostNext else hostJump name s
  | .bindSource bytes => hostBindSource bytes s
  | .bindRaster r => hostBindRaster r s

/-- The host's turn: its next action, nothing once its program has ended (R70, R188). -/
def hostTurn (s : State) : Host.Outcome State Fault Refusal :=
  match s.host.program[s.host.pc]? with
  | some a => hostDo a s
  | none => .next s

/-! ### The reset input -/

/-- The PutPixel calls that a command makes when it runs to its end (R132). -/
def putsOf (i : Instr) (s : State) : List PutPixel :=
  match i with
  | .enc m => if s.operand0 > encLimit m s.cfg then [] else (encRun m s).1.puts
  | .addr | .mask | .cnew _ | .cpos _ | .cadv _ | .crem _ | .cshift _ | .ccmp _ _ | .csub _ _ | .cget _
  | .binit | .brdbit | .brdbits | .beos | .bget | .dec => []

/-- The PutPixel calls of the command in progress. -/
def latchedPuts (s : State) : List PutPixel :=
  match decode s.latch.cmd with
  | .ok i => putsOf i s
  | .error _ => []

/-- How many bytes the command in progress would remove from SRC. -/
def latchedSrcReads (s : State) : Nat :=
  match coreTurn s with
  | .next t => s.src.length - t.src.length
  | .fault _ | .refused _ => 0

/-- The raster that an abandoned command leaves: some prefix of its PutPixel calls is done (R178). -/
def abandonedRaster (s : State) : Raster :=
  s.raster.putAll ((latchedPuts s).take (Config.freePutPrefix s.epoch))

/-- The SRC that an abandoned command leaves: some prefix of the bytes it would have removed is gone
(R178). -/
def abandonedSrc (s : State) : List Byte :=
  s.src.drop (min (Config.freeSrcPrefix s.epoch) (latchedSrcReads s))

/-- Asserting reset: every piece of block state takes its reset value (R176), the raster and SRC keep
what an abandoned command had already done (R178), and PMEM and BUF are drawn anew (R34). An input
already asserted stays so. -/
def assertReset (s : State) : State :=
  if s.resetHeld then s
  else
    { State.resetWith s.cfg with
      raster := if s.busy then abandonedRaster s else s.raster
      src := if s.busy then abandonedSrc s else s.src
      resetHeld := true
      epoch := s.epoch + 1
      events := s.events
      host := s.host
      turns := s.turns }

/-- Releasing reset: the block is idle and accepts the next CMD write (R177). -/
def releaseReset (s : State) : State := { s with resetHeld := false }

end Sys2Proof.Machine
end

