-- ==== Sys2Proof/Machine/Step.lean ====
section
/-! DEFINITION. One step: the next turn of the schedule (10_state.md R25, 20_memory.md R55). -/

namespace Sys2Proof.Machine

/-- A turn. The core takes steps only while a command is in progress (R7). -/
def takeTurn (t : Turn) (s : State) : Host.Outcome State Fault Refusal :=
  match t with
  | .host => hostTurn s
  | .core => if s.busy then coreTurn s else .next s
  | .assertReset => .next (assertReset s)
  | .releaseReset => .next (releaseReset s)

/-- One step: the scheduled turn; with none scheduled, the core's while BUSY = 1, else the host's
(log 2). -/
def step (s : State) : Host.Outcome State Fault Refusal :=
  match s.turns with
  | t :: rest => takeTurn t { s with turns := rest }
  | [] => takeTurn (if s.busy then .core else .host) s

/-- The state in which the given command word has just been accepted and the core moves next: a CMD
write puts it there (R25), there being no fetch (R58; log 3). -/
def State.withFetchWord (s : State) (nbits w : Nat) : State :=
  { State.accept { s with resetHeld := false } (tableWord nbits w) with turns := .core :: s.turns }

end Sys2Proof.Machine
end

