-- ==== Sys2Proof/Machine/HostProgram.lean ====
section
/-! DEFINITION. Host programs as written: the expansion of command lines and pseudo-instructions into
host actions (30_encoding.md R69 to R71). -/

namespace Sys2Proof.Machine

/-- A line of a host program (R69, R71). -/
inductive Line where
  /-- A host action (R70). -/
  | action (a : HostAction)
  /-- A command line (R69). -/
  | command (c : CommandLine)
  /-- `CRESET cA, #cap` (R71). -/
  | creset (ca : SlotNo) (cap : Int)
  /-- `BRESET` (R71). -/
  | breset
  deriving DecidableEq, Repr

/-- The 32-bit value of a `#` operand, two's complement for a negative one (R69). -/
def operandWord (v : Int) : Word := BitVec.ofInt 32 v

/-- `WR REG, #v` for an operand the line names, nothing otherwise (R71). -/
def writeOperand (reg : HostReg) (v : Option Int) : List HostAction :=
  match v with
  | some v => [.wr reg (operandWord v)]
  | none => []

/-- A command line is WR ARG0, WR ARG1, WR CMD and WAIT (R71). -/
def expandCommand (c : CommandLine) : List HostAction :=
  writeOperand .arg0 c.v0 ++ writeOperand .arg1 c.v1 ++ [.wr .cmd (encode c.instr), .wait]

/-- A line's host actions (R71). -/
def Line.expand : Line → List HostAction
  | .action a => [a]
  | .command c => expandCommand c
  | .creset ca cap => expandCommand { instr := .cnew ca, v0 := some cap, v1 := some 0 }
  | .breset => expandCommand { instr := .binit, v0 := some 0 }

/-- The host program of a list of lines. -/
def assemble (lines : List Line) : List HostAction := lines.flatMap Line.expand

/-- A host program loaded from outside into the host agent, to run from its first action (log 3). -/
def State.loadProgram (s : State) (program : List HostAction) : State :=
  { s with host := { program := program, pc := 0, waited := .ok, reads := [] } }

end Sys2Proof.Machine
end

