-- ==== Sys2Proof/Safety.lean ====
section
/-! DEFINITION. What the spec says always holds of the state, and what counts as a safe run. -/

namespace Sys2Proof.Machine

/-- 0 ≤ flat ≤ cap in every slot (R27). -/
abbrev State.SlotsBounded (s : State) : Prop :=
  ∀ c : SlotNo, (s.slot c).flat.toNat ≤ (s.slot c).cap.toNat

/-- The BBS state is in range (R29), its bytes below FILL have been written (R112), and BUF is in
canonical form within its BUF_BYTES entries. -/
abbrev Bbs.Bounded (b : Bbs) (cfg : Params) : Prop :=
  b.fill ≤ cfg.bufBytes ∧ b.flat.toNat ≤ cfg.bufBytes * 8 ∧
  (∀ i < b.fill, (Memory.load? b.buf i).isSome = true) ∧
  Memory.wf b.buf ∧ Memory.below b.buf cfg.bufBytes

/-- PMEM is in canonical form within its PMEM_BYTES bytes (R33). -/
abbrev State.PmemBounded (s : State) : Prop :=
  Memory.wf s.pmem ∧ Memory.below s.pmem s.cfg.pmemBytes

/-- The raster is a W x H array (R39), and while a command runs the one sampled at acceptance (R25,
R43). -/
abbrev State.RasterKept (s : State) : Prop :=
  s.raster.wf ∧ (s.busy = true → s.raster.width = s.latch.w ∧ s.raster.height = s.latch.h)

/-- While reset is asserted no command runs (R177). -/
abbrev State.ResetIdle (s : State) : Prop := s.resetHeld = true → s.busy = false

/-- The block never produces code 8 (R162); codes 9 to 15 have no representation (R151). -/
abbrev State.CodeProduced (s : State) : Prop := s.code ≠ .unsupportedFormat

/-- The invariant of the machine. -/
abbrev Inv (s : State) : Prop :=
  s.cfg.Legal ∧ s.SlotsBounded ∧ s.bbs.Bounded s.cfg ∧ s.PmemBounded ∧ s.RasterKept ∧ s.ResetIdle ∧
  s.CodeProduced

/-- The end of a run: the host has performed its last action and BUSY = 0 (R188). -/
abbrev State.RunEnded (s : State) : Prop := s.host.program.length ≤ s.host.pc ∧ s.busy = false

/-- A safe run of `n` steps: it breaks no host duty (no refusal, R165) and meets no programming error
or illegal word (no fault event, R165). -/
def SafeRun (n : Nat) (s : State) : Prop :=
  ∃ t, Host.Core.run Sys2Proof.core n s = .next t ∧ t.events = s.events

end Sys2Proof.Machine
end

