-- ==== Sys2Proof/Certificates/Slice0/Obligations.lean ====
section
/-! DEFINITION. The statements, from the numbered rules of spec/. The vocabulary first: plain readings of
the state that use no operation of the machine where the rule can be said by arithmetic. -/

namespace Sys2Proof.Machine

/-- Stream bit `o` of a byte by arithmetic: the byte divided by 2^(7-o), odd or even (R15). -/
def streamBit (b : Byte) (o : Nat) : Bool := decide (b.toNat / 2 ^ (7 - o) % 2 = 1)

/-- The stream bits of a byte sequence (R15). -/
def bitsOf (bytes : List Byte) : List Bool := bytes.flatMap fun b => (List.range 8).map (streamBit b)

/-- The valid bytes of the window, BUF[0 .. FILL-1] (R29). -/
def Bbs.window (epoch : Nat) (b : Bbs) : List Byte := (List.range b.fill).map (bufRead epoch b.buf)

/-- The bits a stream still has to give: those of the window from the cursor on and then all of SRC;
past the window, those of SRC from the cursor's bit offset on (R112, R113, R126). -/
def Stream.unread (epoch : Nat) (st : Stream) : List Bool :=
  if st.bbs.flat.toNat < 8 * st.bbs.fill
  then (bitsOf (st.bbs.window epoch ++ st.src)).drop st.bbs.flat.toNat
  else (bitsOf st.src).drop (st.bbs.flat.toNat % 8)

/-- The stream after `n` calls of BbsReadBit; a call that answers EOS leaves it as it is (R127). -/
def afterReads (cfg : Params) (epoch : Nat) : Nat → Stream → Stream
  | 0, st => st
  | n + 1, st =>
    match readBit cfg epoch st with
    | none => afterReads cfg epoch n st
    | some (_, st') => afterReads cfg epoch n st'

/-- The same command run `n` times. -/
def execTimes (i : Instr) : Nat → State → Host.Outcome State Fault Refusal
  | 0, s => .next s
  | n + 1, s =>
    match exec i s with
    | .next t => execTimes i n t
    | .fault r => .fault r
    | .refused r => .refused r

/-- The slots of a raster in slot order: R, G, B of each opaque pixel in scan order (R128, R129). -/
def slotOrder (r : Raster) : List (Nat × Nat × Channel) :=
  (scanOrder r.width.toNat r.height.toNat).flatMap fun p =>
    if (r.getPixel p.1 p.2).a = 0#8 then []
    else [(p.1, p.2, .red), (p.1, p.2, .green), (p.1, p.2, .blue)]

/-- The number of opaque pixels, P_op (R145). -/
def opaqueCount (r : Raster) : Nat :=
  ((scanOrder r.width.toNat r.height.toNat).filter fun p => (r.getPixel p.1 p.2).a ≠ 0#8).length

/-- The payload bits ENC can take: the 8L bits of PMEM[0 .. L-1], or what the BBS stream still has
(R130). -/
def payloadBits (m : PayloadSource) (s : State) : List Bool :=
  match m with
  | .pmem => (List.range (8 * s.latch.a0.toNat)).map fun k => streamBit (s.pmemByte (k / 8)) (k % 8)
  | .bbs => s.stream.unread s.epoch

/-- The codes each command can complete with (R151's last column). -/
def codesOf : Instr → List Code
  | .addr | .cpos _ => [.ok, .outOfRange]
  | .cnew _ | .cshift _ | .binit => [.ok, .invalidRange]
  | .cadv _ => [.ok, .exhausted]
  | .brdbit => [.ok, .endOfSource]
  | .brdbits | .enc _ | .dec => [.ok, .endOfSource, .invalidArgument]
  | .mask => [.ok, .assertViolation]
  | .crem _ | .ccmp _ _ | .csub _ _ | .cget _ | .beos | .bget => [.ok]

/-- The commands of the cursor sequencer (R65). -/
def isCursorCommand : Instr → Bool
  | .cnew _ | .cpos _ | .cadv _ | .crem _ | .cshift _ | .ccmp _ _ | .csub _ _ | .cget _ => true
  | .addr | .mask | .binit | .brdbit | .brdbits | .beos | .bget | .enc _ | .dec => false

/-- The commands of the bit-stream reader (R65). -/
def isBbsCommand : Instr → Bool
  | .binit | .brdbit | .brdbits | .beos | .bget => true
  | .addr | .mask | .cnew _ | .cpos _ | .cadv _ | .crem _ | .cshift _ | .ccmp _ _ | .csub _ _ | .cget _
  | .enc _ | .dec => false

/-- The commands that may write RES0 on an exit other than OK (R24). -/
def reportsProgress : Instr → Bool
  | .brdbits | .enc _ | .dec => true
  | .addr | .mask | .cnew _ | .cpos _ | .cadv _ | .crem _ | .cshift _ | .ccmp _ _ | .csub _ _ | .cget _
  | .binit | .brdbit | .beos | .bget => false

/-- The commands that may consume SRC: BINIT, and those that read bits (R123). -/
def readsStream : Instr → Bool
  | .binit | .brdbit | .brdbits | .enc .bbs => true
  | .addr | .mask | .cnew _ | .cpos _ | .cadv _ | .crem _ | .cshift _ | .ccmp _ _ | .csub _ _ | .cget _
  | .beos | .bget | .enc .pmem | .dec => false

/-- ENC's and DEC's claim on the raster; nothing for the other commands (R43). -/
def needsRaster : Instr → Bool
  | .enc _ | .dec => true
  | .addr | .mask | .cnew _ | .cpos _ | .cadv _ | .crem _ | .cshift _ | .ccmp _ _ | .csub _ _ | .cget _
  | .binit | .brdbit | .brdbits | .beos | .bget => false

/-- A word is legal by its fields: RSV is 0, the opcode is one of the 17, and the fields its row marks
"–" are 0 (R66, conditions 1 to 3). -/
def FieldsLegal (w : Word) : Prop :=
  rsvField w = 0 ∧
  ((opcField w ∈ [0x01#8, 0x02#8, 0x20#8, 0x21#8, 0x22#8, 0x23#8, 0x24#8, 0x31#8] ∧
      caField w = 0 ∧ cbField w = 0 ∧ modeField w = .pmem) ∨
   (opcField w ∈ [0x10#8, 0x11#8, 0x12#8, 0x13#8, 0x14#8, 0x17#8] ∧
      cbField w = 0 ∧ modeField w = .pmem) ∨
   (opcField w ∈ [0x15#8, 0x16#8] ∧ modeField w = .pmem) ∨
   (opcField w = 0x30#8 ∧ caField w = 0 ∧ cbField w = 0))

/-- The group-and-trim form of DEC for one group at bit offset k (R140). -/
def groupAndTrim (epoch L k : Nat) (grp : Byte) (m : Memory) : Memory :=
  let i := k >>> 3
  let o := k &&& 7
  if o ≤ 5 then pmemWrite m i (pmemRead epoch m i ||| (grp <<< (5 - o)))
  else
    let trim := o - 5
    let m1 := pmemWrite m i (pmemRead epoch m i ||| (grp >>> trim))
    if i + 1 < L
    then pmemWrite m1 (i + 1)
      (pmemRead epoch m1 (i + 1) ||| ((grp &&& BitVec.ofNat 8 (2 ^ trim - 1)) <<< (8 - trim)))
    else m1

/-- The reset values of the block state (R176). PMEM holds what is drawn at the reset (R34). -/
def AtResetValues (cfg : Params) (s : State) : Prop :=
  s.cmd = 0#32 ∧ s.arg0 = 0#32 ∧ s.arg1 = 0#32 ∧ s.res0 = 0#32 ∧ s.res1 = 0#32 ∧ s.code = .ok ∧
  s.busy = false ∧ statusWord s.busy s.code = 0#32 ∧
  s.readReg (some .cfgBuf) = BitVec.ofNat 32 cfg.bufBytes ∧
  s.readReg (some .cfgPmem) = BitVec.ofNat 32 cfg.pmemBytes ∧
  (∀ c, s.slot c = { flat := 0, cap := 0 }) ∧ s.bbs.flat = 0#32 ∧ s.bbs.fill = 0 ∧
  (∀ a, s.pmemByte a = Config.freePmem s.epoch a)

end Sys2Proof.Machine

open Sys2Proof Sys2Proof.Machine

/-! ### Encoding -/

/-- Words of 95_test_vectors.md, one of each family and every field: each decodes to the command it
stands for, and words the vectors call illegal do not decode. -/
def Obligations.SpecWordsDecodeAsWritten : Prop :=
  decode 0x00000001#32 = .ok .addr ∧ decode 0x00000002#32 = .ok .mask ∧
  decode 0x00000210#32 = .ok (.cnew 2) ∧ decode 0x00000C15#32 = .ok (.ccmp 0 3) ∧
  decode 0x00000316#32 = .ok (.csub 3 0) ∧ decode 0x00000022#32 = .ok .brdbits ∧
  decode 0x00000030#32 = .ok (.enc .pmem) ∧ decode 0x00001030#32 = .ok (.enc .bbs) ∧
  decode 0x00000031#32 = .ok .dec ∧
  decode 0x00000000#32 = .error .unknownOpcode ∧ decode 0x00001031#32 = .error .unusedField ∧
  decode 0x80000001#32 = .error .reservedBits

/-- A word decodes to a command exactly when it is that command's encoding: no bit of a word is dropped
and no command has two words (R61, R65, R66). -/
def Obligations.DecodeAndEncodeAgree : Prop :=
  ∀ (w : Word) (i : Instr), decode w = .ok i ↔ encode i = w

/-- The legality of R66, three ways: by fields, by mask and match, and by the decoder; and no word
matches two rows. -/
def Obligations.LegalWordsAreThoseThatDecode : Prop :=
  ∀ w : Word,
    (wordLegal w = true ↔ FieldsLegal w) ∧
    (wordLegal w = true ↔ ∃ i, decode w = .ok i) ∧
    (legalRows.filter fun r => w &&& r.mask == r.pattern).length ≤ 1

/-- An illegal word is accepted like any other and its command changes nothing but STATUS (R67). Nothing
is said of the model's own record of fault events (log 10). -/
def Obligations.IllegalWordOnlyReportsIllegalCommand : Prop :=
  ∀ (s : State) (w : Word), wordLegal w = false → s.busy = false → s.resetHeld = false →
    ∃ t, hostDo (.wr .cmd w) s = .next t ∧ t.busy = true ∧ t.cmd = w ∧
      ∃ e, coreTurn t = .next { t with code := .illegalCommand, busy := false, events := e }

/-! ### AGU -/

/-- ADDR (R86), both exits. -/
def Obligations.AddrGivesByteAndBitOffset : Prop :=
  encode .addr = 0x00000001#32 ∧
  ∀ s : State,
    (s.latch.a0.toNat / 8 < s.latch.a1.toNat →
      exec .addr s =
        .next { s with res0 := BitVec.ofNat 32 (s.latch.a0.toNat / 8),
                       res1 := BitVec.ofNat 32 (s.latch.a0.toNat % 8), code := .ok, busy := false }) ∧
    (s.latch.a1.toNat ≤ s.latch.a0.toNat / 8 →
      exec .addr s = .next { s with code := .outOfRange, busy := false })

/-- MASK (R88), both exits. Nothing is said of the model's own record of fault events (log 10). -/
def Obligations.MaskGivesLowOrderOnes : Prop :=
  encode .mask = 0x00000002#32 ∧
  ∀ s : State,
    (s.latch.a0.toNat ≤ 8 →
      exec .mask s =
        .next { s with res0 := BitVec.ofNat 32 (2 ^ s.latch.a0.toNat - 1), code := .ok, busy := false }) ∧
    (8 < s.latch.a0.toNat →
      ∃ e, exec .mask s = .next { s with code := .assertViolation, busy := false, events := e })

/-- Every BitAddress the block produces is the one of its flat index (R87): ADDR, CPOS, CADV, and the
address a bit read uses. -/
def Obligations.BitAddressesMatchTheirFlatIndex : Prop :=
  (∀ s t : State, exec .addr s = .next t → t.code = .ok →
    t.res1.toNat < 8 ∧ t.res0.toNat * 8 + t.res1.toNat = s.latch.a0.toNat) ∧
  (∀ (ca : SlotNo) (i : Instr) (s t : State), i = .cpos ca ∨ i = .cadv ca → exec i s = .next t →
    t.code = .ok → t.res1.toNat < 8 ∧ t.res0.toNat * 8 + t.res1.toNat = (s.slot ca).flat.toNat) ∧
  (∀ (cfg : Params) (epoch : Nat) (st w : Stream), readyWindow cfg epoch st = some w →
    ∃ byte bit, bit < 8 ∧ byte * 8 + bit = w.bbs.flat.toNat ∧
      (readBit cfg epoch st).map Prod.fst = some (streamBit (bufRead epoch w.bbs.buf byte) bit)) ∧
  (∀ b : Byte, streamBit b 0 = b.msb)

/-- ADDR and MASK read only their operands and write only RES0, RES1 and STATUS (R89): two states with
the same latched operands give the same code and results. Nothing is said of the model's own record of
fault events (log 10). -/
def Obligations.AguCommandsArePure : Prop :=
  ∀ (i : Instr) (s₁ s₂ : State), i = .addr ∨ i = .mask →
    s₁.latch.a0 = s₂.latch.a0 → s₁.latch.a1 = s₂.latch.a1 →
    ∃ c v₀ v₁, ∀ s, s = s₁ ∨ s = s₂ →
      ∃ e, exec i s =
        .next { s with
          res0 := if c = .ok then v₀ else s.res0
          res1 := if c = .ok ∧ i = .addr then v₁ else s.res1
          code := c, busy := false, events := e }

/-! ### CSQ -/

/-- CNEW (R90), both exits. -/
def Obligations.CnewCreatesACursor : Prop :=
  ∀ ca : SlotNo, encode (.cnew ca) = 0x00000010#32 ||| BitVec.ofNat 32 ca.val <<< 8 ∧
  ∀ s : State,
    (s.latch.a1.toNat ≤ s.latch.a0.toNat →
      exec (.cnew ca) s =
        .next { s with slots := s.slots.set ca { flat := s.latch.a1, cap := s.latch.a0 },
                       code := .ok, busy := false }) ∧
    (s.latch.a0.toNat < s.latch.a1.toNat →
      exec (.cnew ca) s = .next { s with code := .invalidRange, busy := false })

/-- CPOS (R93), both exits. -/
def Obligations.CposGivesTheCurrentAddress : Prop :=
  ∀ ca : SlotNo, encode (.cpos ca) = 0x00000011#32 ||| BitVec.ofNat 32 ca.val <<< 8 ∧
  ∀ s : State,
    ((s.slot ca).flat.toNat < (s.slot ca).cap.toNat →
      exec (.cpos ca) s =
        .next { s with res0 := BitVec.ofNat 32 ((s.slot ca).flat.toNat / 8),
                       res1 := BitVec.ofNat 32 ((s.slot ca).flat.toNat % 8), code := .ok, busy := false }) ∧
    ((s.slot ca).cap.toNat ≤ (s.slot ca).flat.toNat →
      exec (.cpos ca) s = .next { s with code := .outOfRange, busy := false })

/-- CADV (R95), both exits: the address before advancing, and no overflow of a bounded cursor. -/
def Obligations.CadvAdvancesByOneBit : Prop :=
  ∀ ca : SlotNo, encode (.cadv ca) = 0x00000012#32 ||| BitVec.ofNat 32 ca.val <<< 8 ∧
  ∀ s : State,
    ((s.slot ca).flat.toNat < (s.slot ca).cap.toNat →
      ∃ f : Word, f.toNat = (s.slot ca).flat.toNat + 1 ∧ f.toNat ≤ (s.slot ca).cap.toNat ∧
      exec (.cadv ca) s =
        .next { s with slots := s.slots.set ca { flat := f, cap := (s.slot ca).cap },
                       res0 := BitVec.ofNat 32 ((s.slot ca).flat.toNat / 8),
                       res1 := BitVec.ofNat 32 ((s.slot ca).flat.toNat % 8), code := .ok, busy := false }) ∧
    ((s.slot ca).flat = (s.slot ca).cap →
      exec (.cadv ca) s = .next { s with code := .exhausted, busy := false })

/-- CREM (R98): the remaining bits, of a cursor within its capacity (R27). -/
def Obligations.CremGivesTheRemainingBits : Prop :=
  ∀ ca : SlotNo, encode (.crem ca) = 0x00000013#32 ||| BitVec.ofNat 32 ca.val <<< 8 ∧
  ∀ s : State, (s.slot ca).flat.toNat ≤ (s.slot ca).cap.toNat →
    ∃ v : Word, v.toNat + (s.slot ca).flat.toNat = (s.slot ca).cap.toNat ∧
      exec (.crem ca) s = .next { s with res0 := v, code := .ok, busy := false }

/-- CSHIFT (R100), both exits: the sum is exact, the amount signed. -/
def Obligations.CshiftMovesBySignedAmount : Prop :=
  ∀ ca : SlotNo, encode (.cshift ca) = 0x00000014#32 ||| BitVec.ofNat 32 ca.val <<< 8 ∧
  ∀ (s : State) (t : Int), t = (s.slot ca).flat.toNat + s.latch.a0.toInt →
    (0 ≤ t ∧ t ≤ (s.slot ca).cap.toNat →
      ∃ f : Word, (f.toNat : Int) = t ∧
      exec (.cshift ca) s =
        .next { s with slots := s.slots.set ca { flat := f, cap := (s.slot ca).cap },
                       code := .ok, busy := false }) ∧
    (t < 0 ∨ ((s.slot ca).cap.toNat : Int) < t →
      exec (.cshift ca) s = .next { s with code := .invalidRange, busy := false })

/-- CCMP (R103): the order of the flat indices and, apart, whether the capacities are equal. -/
def Obligations.CcmpComparesFlatIndices : Prop :=
  ∀ ca cb : SlotNo,
  encode (.ccmp ca cb) = 0x00000015#32 ||| BitVec.ofNat 32 cb.val <<< 10 ||| BitVec.ofNat 32 ca.val <<< 8 ∧
  ∀ s : State, ∃ v₀ v₁ : Word,
    exec (.ccmp ca cb) s = .next { s with res0 := v₀, res1 := v₁, code := .ok, busy := false } ∧
    ((s.slot ca).flat.toNat = (s.slot cb).flat.toNat → v₀ = 0#32) ∧
    ((s.slot cb).flat.toNat < (s.slot ca).flat.toNat → v₀ = 1#32) ∧
    ((s.slot ca).flat.toNat < (s.slot cb).flat.toNat → v₀ = 0xFFFFFFFF#32) ∧
    ((s.slot ca).cap.toNat = (s.slot cb).cap.toNat → v₁ = 1#32) ∧
    ((s.slot ca).cap.toNat ≠ (s.slot cb).cap.toNat → v₁ = 0#32)

/-- CCMP always completes with OK and its RES0 is a total order on the slots' flat indices, whatever
the capacities (R104). -/
def Obligations.CcmpIsATotalOrder : Prop :=
  ∃ res : State → SlotNo → SlotNo → Word,
    (∀ s a b, ∃ t, exec (.ccmp a b) s = .next t ∧ t.code = .ok ∧ t.res0 = res s a b) ∧
    ∀ (s : State) (le : SlotNo → SlotNo → Prop),
      (∀ a b, le a b ↔ res s a b = 0#32 ∨ res s a b = 0xFFFFFFFF#32) →
      (∀ a, le a a) ∧ (∀ a b, le a b ∨ le b a) ∧
      (∀ a b, le a b → le b a → (s.slot a).flat = (s.slot b).flat) ∧
      (∀ a b c, le a b → le b c → le a c) ∧
      (∀ a b, (s.slot a).flat = (s.slot b).flat → res s a b = 0#32)

/-- CSUB (R105): RES0 and RES1 together are the exact difference. -/
def Obligations.CsubGivesDifferenceAndBorrow : Prop :=
  ∀ ca cb : SlotNo,
  encode (.csub ca cb) = 0x00000016#32 ||| BitVec.ofNat 32 cb.val <<< 10 ||| BitVec.ofNat 32 ca.val <<< 8 ∧
  ∀ s : State, ∃ v₀ v₁ : Word,
    exec (.csub ca cb) s = .next { s with res0 := v₀, res1 := v₁, code := .ok, busy := false } ∧
    (v₀.toNat : Int) = ((s.slot ca).flat.toNat - (s.slot cb).flat.toNat : Int) % 2 ^ 32 ∧
    (v₁ = if (s.slot ca).flat.toNat < (s.slot cb).flat.toNat then 1#32 else 0#32) ∧
    ((s.slot ca).flat.toNat - (s.slot cb).flat.toNat : Int) = (v₀.toNat : Int) - v₁.toNat * 2 ^ 32

/-- CGET (R107). -/
def Obligations.CgetReadsTheSlot : Prop :=
  ∀ ca : SlotNo, encode (.cget ca) = 0x00000017#32 ||| BitVec.ofNat 32 ca.val <<< 8 ∧
  ∀ s : State,
    exec (.cget ca) s =
      .next { s with res0 := (s.slot ca).flat, res1 := (s.slot ca).cap, code := .ok, busy := false }

/-- Which slots a cursor command changes (R99), and that no other command changes one (R27). -/
def Obligations.OnlySlotWritersChangeTheirSlot : Prop :=
  ∀ (i : Instr) (s t : State), exec i s = .next t →
    ∀ c : SlotNo, t.slot c = s.slot c ∨ ((i = .cnew c ∨ i = .cadv c ∨ i = .cshift c) ∧ t.code = .ok)

/-- Consecutive CADV on a slot yield the addresses of flat, flat + 1, ... in order, and then Exhausted
for good (R96). -/
def Obligations.RepeatedCadvWalksTheCursor : Prop :=
  ∀ (s : State) (ca : SlotNo) (j : Nat), (s.slot ca).flat.toNat ≤ (s.slot ca).cap.toNat →
    ∃ u t, execTimes (.cadv ca) j s = .next u ∧ exec (.cadv ca) u = .next t ∧
      ((s.slot ca).flat.toNat + j < (s.slot ca).cap.toNat →
        t.code = .ok ∧ t.res0.toNat = ((s.slot ca).flat.toNat + j) / 8 ∧
        t.res1.toNat = ((s.slot ca).flat.toNat + j) % 8) ∧
      ((s.slot ca).cap.toNat ≤ (s.slot ca).flat.toNat + j →
        t.code = .exhausted ∧ t.slots = u.slots ∧ t.res0 = u.res0 ∧ t.res1 = u.res1)

/-- No CSQ command reads or writes the BBS state, no BBS command reads or writes a slot (R97): putting
another value there changes nothing else of the result. -/
def Obligations.SlotsAndBbsAreIndependent : Prop :=
  (∀ (i : Instr) (s t : State) (b : Bbs), isCursorCommand i = true → exec i s = .next t →
    t.bbs = s.bbs ∧ exec i { s with bbs := b } = .next { t with bbs := b }) ∧
  (∀ (i : Instr) (s t : State) (z : Slots), isBbsCommand i = true → exec i s = .next t →
    t.slots = s.slots ∧ exec i { s with slots := z } = .next { t with slots := z })

/-! ### BBS -/

/-- BINIT (R110), both exits: BUF takes the first bytes of SRC, the rest of BUF is as before. -/
def Obligations.BinitFillsTheWindow : Prop :=
  encode .binit = 0x00000020#32 ∧
  ∀ s : State,
    (s.latch.a0.toNat ≤ s.cfg.bufBytes * 8 →
      ∃ buf : Memory,
        exec .binit s =
          .next { s with bbs := { buf := buf, fill := min s.cfg.bufBytes s.src.length, flat := s.latch.a0 },
                         src := s.src.drop s.cfg.bufBytes, code := .ok, busy := false } ∧
        (∀ i, i < min s.cfg.bufBytes s.src.length → Memory.load? buf i = s.src[i]?) ∧
        (∀ i, min s.cfg.bufBytes s.src.length ≤ i → Memory.load? buf i = Memory.load? s.bbs.buf i)) ∧
    (s.cfg.bufBytes * 8 < s.latch.a0.toNat →
      exec .binit s = .next { s with code := .invalidRange, busy := false })

/-- BRDBIT (R114) in the three situations of R115: inside the window, at or past its end with SRC not
empty (a refill, which retains nothing), and with SRC empty. -/
def Obligations.BrdbitReadsOrRefillsOrEnds : Prop :=
  encode .brdbit = 0x00000021#32 ∧
  ∀ s : State, s.cfg.Legal →
    (s.bbs.flat.toNat < s.bbs.fill * 8 →
      exec .brdbit s =
        .next { s with
          bbs := { s.bbs with flat := BitVec.ofNat 32 (s.bbs.flat.toNat + 1) }
          res0 := BitVec.ofNat 32
            ((bufRead s.epoch s.bbs.buf (s.bbs.flat.toNat / 8)).toNat / 2 ^ (7 - s.bbs.flat.toNat % 8) % 2)
          code := .ok, busy := false }) ∧
    (s.bbs.fill * 8 ≤ s.bbs.flat.toNat → s.src = [] →
      exec .brdbit s = .next { s with code := .endOfSource, busy := false }) ∧
    (∀ (b : Byte) (rest : List Byte), s.bbs.fill * 8 ≤ s.bbs.flat.toNat → s.src = b :: rest →
      ∃ buf : Memory,
        exec .brdbit s =
          .next { s with
            bbs := { buf := buf, fill := min s.cfg.bufBytes s.src.length,
                     flat := BitVec.ofNat 32 (s.bbs.flat.toNat % 8 + 1) }
            src := s.src.drop s.cfg.bufBytes
            res0 := BitVec.ofNat 32 (b.toNat / 2 ^ (7 - s.bbs.flat.toNat % 8) % 2)
            code := .ok, busy := false } ∧
        (∀ i, i < min s.cfg.bufBytes s.src.length → Memory.load? buf i = s.src[i]?) ∧
        (∀ i, min s.cfg.bufBytes s.src.length ≤ i → Memory.load? buf i = Memory.load? s.bbs.buf i))

/-- BbsReadBit as a refinement of taking the next bit from a list of bits: it answers the first unread
bit and leaves the others, EOS exactly when none is left, and keeps the BBS state in range (R112, R122). -/
def Obligations.ReadBitTakesTheNextUnreadBit : Prop :=
  ∀ (cfg : Params) (epoch : Nat) (st : Stream), cfg.Legal → st.bbs.Bounded cfg →
    match readBit cfg epoch st with
    | none => st.unread epoch = []
    | some (b, st') => st.unread epoch = b :: st'.unread epoch ∧ st'.bbs.Bounded cfg

/-- The stream law (R125): after BINIT with start s over S, the j-th bit read is stream bit s + j of S,
and EOS from the end of S on; after reset with SRC = S, stream bit j. -/
def Obligations.StreamLaw : Prop :=
  (∀ s : State, s.cfg.Legal → s.latch.a0.toNat ≤ s.cfg.bufBytes * 8 →
    ∃ t, exec .binit s = .next t ∧ t.code = .ok ∧
      ∀ j : Nat,
        (readBit t.cfg t.epoch (afterReads t.cfg t.epoch j t.stream)).map Prod.fst =
          if s.latch.a0.toNat + j < 8 * s.src.length
          then some (streamBit (s.src.getD ((s.latch.a0.toNat + j) / 8) 0) ((s.latch.a0.toNat + j) % 8))
          else none) ∧
  (∀ (cfg : Params) (epoch : Nat) (S : List Byte), cfg.Legal →
    ∀ j : Nat,
      (readBit cfg epoch (afterReads cfg epoch j { bbs := (State.resetWith cfg).bbs, src := S })).map Prod.fst =
        if j < 8 * S.length then some (streamBit (S.getD (j / 8) 0) (j % 8)) else none)

/-- BRDBITS (R116, R117, R118): the operand check, the packed bits, zeros after them, the consumed
stream, the progress count, and every other PMEM byte as before. -/
def Obligations.BrdbitsPacksTheStreamIntoPmem : Prop :=
  encode .brdbits = 0x00000022#32 ∧
  ∀ (s : State) (n dst nb i : Nat) (u : List Bool), s.cfg.Legal → s.bbs.Bounded s.cfg →
    n = s.latch.a0.toNat → dst = s.latch.a1.toNat → nb = (n + 7) / 8 →
    u = s.stream.unread s.epoch → i = min n u.length →
    (s.cfg.pmemBytes < dst + nb →
      exec .brdbits s = .next { s with code := .invalidArgument, busy := false }) ∧
    (dst + nb ≤ s.cfg.pmemBytes →
      ∃ (m : Memory) (st : Stream),
        exec .brdbits s =
          .next { s with bbs := st.bbs, src := st.src, pmem := m, res0 := BitVec.ofNat 32 i,
                         code := if i = n then .ok else .endOfSource, busy := false } ∧
        st = afterReads s.cfg s.epoch i s.stream ∧ st.unread s.epoch = u.drop i ∧
        (∀ j, j < i → u[j]? = some (streamBit (pmemRead s.epoch m (dst + j / 8)) (j % 8))) ∧
        (∀ j, i ≤ j → j < 8 * nb → streamBit (pmemRead s.epoch m (dst + j / 8)) (j % 8) = false) ∧
        (∀ a, a < dst ∨ dst + nb ≤ a → pmemRead s.epoch m a = s.pmemByte a))

/-- BEOS (R121): 1 exactly when no byte remains in SRC, and nothing is consumed. -/
def Obligations.BeosProbesTheSource : Prop :=
  encode .beos = 0x00000023#32 ∧
  ∀ s : State,
    (s.src = [] → exec .beos s = .next { s with res0 := 1#32, code := .ok, busy := false }) ∧
    (s.src ≠ [] → exec .beos s = .next { s with res0 := 0#32, code := .ok, busy := false })

/-- BGET (R124): the BBS cursor and the fill count, which R29 bounds. -/
def Obligations.BgetReadsCursorAndFill : Prop :=
  encode .bget = 0x00000024#32 ∧
  ∀ s : State, s.cfg.Legal → s.bbs.Bounded s.cfg →
    ∃ v : Word, v.toNat = s.bbs.fill ∧
      exec .bget s = .next { s with res0 := s.bbs.flat, res1 := v, code := .ok, busy := false }

/-- After an EndOfSource the same read fails again, until the host puts bytes into SRC; then the read
refills from them (R127). -/
def Obligations.EndOfSourceHoldsUntilNewBytes : Prop :=
  ∀ s t : State, s.cfg.Legal → exec .brdbit s = .next t → t.code = .endOfSource →
    t = { s with code := .endOfSource, busy := false } ∧
    exec .brdbit t = .next t ∧
    ∀ (b : Byte) (rest : List Byte), ∃ u,
      exec .brdbit { t with src := b :: rest } = .next u ∧ u.code = .ok ∧
      u.res0 = BitVec.ofNat 32 (b.toNat / 2 ^ (7 - s.bbs.flat.toNat % 8) % 2) ∧
      u.src = (b :: rest).drop s.cfg.bufBytes

/-- SRC is consumed from its front only, by BINIT and by bit reads, and a bit read inside the window
consumes nothing; no other command touches the BBS state (R44, R123). -/
def Obligations.SourceIsConsumedOnlyByStreamReads : Prop :=
  ∀ (i : Instr) (s t : State), exec i s = .next t →
    t.src <:+ s.src ∧
    (readsStream i = false → t.src = s.src ∧ t.bbs = s.bbs) ∧
    (i = .brdbit → s.bbs.flat.toNat < s.bbs.fill * 8 → t.src = s.src)

/-! ### CODEC -/

/-- ENC's and DEC's operand checks come before any other effect (R136, R143). -/
def Obligations.CodecChecksItsLengthFirst : Prop :=
  ∀ s : State,
    (s.cfg.pmemBytes < s.latch.a0.toNat →
      exec (.enc .pmem) s = .next { s with code := .invalidArgument, busy := false } ∧
      exec .dec s = .next { s with code := .invalidArgument, busy := false }) ∧
    (2 ^ 29 - 1 < s.latch.a0.toNat →
      exec (.enc .bbs) s = .next { s with code := .invalidArgument, busy := false })

/-- ENC from either source (R131 to R135): slot i below k carries payload bit i and keeps its other
bits, every other slot, every alpha and every transparent pixel is as before; k is as far as the payload
length, the slots and the payload bits reach. -/
def Obligations.EncEmbedsThePayload : Prop :=
  encode (.enc .pmem) = 0x00000030#32 ∧ encode (.enc .bbs) = 0x00001030#32 ∧
  ∀ (m : PayloadSource) (s : State) (L k : Nat) (u : List Bool),
    s.cfg.Legal → s.bbs.Bounded s.cfg → s.RasterBorrowed → L = s.latch.a0.toNat →
    (m = .pmem → L ≤ s.cfg.pmemBytes) → (m = .bbs → L ≤ 2 ^ 29 - 1) →
    u = payloadBits m s → k = min (8 * L) (min (slotOrder s.raster).length u.length) →
    ∃ (r : Raster) (st : Stream),
      exec (.enc m) s =
        .next { s with raster := r, bbs := st.bbs, src := st.src, res0 := BitVec.ofNat 32 k,
                       code := if k = 8 * L then .ok else .endOfSource, busy := false } ∧
      r.width = s.raster.width ∧ r.height = s.raster.height ∧ r.wf ∧
      (∀ i x y c, (slotOrder s.raster)[i]? = some (x, y, c) →
        ((r.getPixel x y).channel c).toNat =
          if i < k
          then ((s.raster.getPixel x y).channel c).toNat / 2 * 2 + (if u[i]? = some true then 1 else 0)
          else ((s.raster.getPixel x y).channel c).toNat) ∧
      (∀ x y, x < s.raster.width.toNat → y < s.raster.height.toNat →
        (r.getPixel x y).a = (s.raster.getPixel x y).a ∧
        ((s.raster.getPixel x y).a = 0#8 → r.getPixel x y = s.raster.getPixel x y)) ∧
      (m = .pmem → st = s.stream) ∧
      (m = .bbs → st = afterReads s.cfg s.epoch k s.stream ∧ st.unread s.epoch = u.drop k)

/-- DEC (R139, R142): PMEM[0 .. L-1] takes the LSBs of the slots in order and zeros after them, every
other PMEM byte is as before. -/
def Obligations.DecExtractsTheSlots : Prop :=
  encode .dec = 0x00000031#32 ∧
  ∀ (s : State) (L k : Nat), s.cfg.Legal → s.RasterBorrowed → L = s.latch.a0.toNat →
    L ≤ s.cfg.pmemBytes → k = min (8 * L) (slotOrder s.raster).length →
    ∃ m : Memory,
      exec .dec s =
        .next { s with pmem := m, res0 := BitVec.ofNat 32 k,
                       code := if k = 8 * L then .ok else .endOfSource, busy := false } ∧
      (∀ i x y c, i < k → (slotOrder s.raster)[i]? = some (x, y, c) →
        streamBit (pmemRead s.epoch m (i / 8)) (i % 8) =
          decide (((s.raster.getPixel x y).channel c).toNat % 2 = 1)) ∧
      (∀ i, k ≤ i → i < 8 * L → streamBit (pmemRead s.epoch m (i / 8)) (i % 8) = false) ∧
      (∀ a, L ≤ a → pmemRead s.epoch m a = s.pmemByte a)

/-- Round trip (R144): ENC from PMEM and then DEC of the same length give the payload back, if the
raster has at least ceil(8L/3) opaque pixels. The DEC is accepted after the ENC completed, with no
change by the host but the operand and the command word. -/
def Obligations.DecodeOfEncodeIsThePayload : Prop :=
  ∀ s : State, s.cfg.Legal → s.RasterBorrowed → s.latch.a0.toNat ≤ s.cfg.pmemBytes →
    (8 * s.latch.a0.toNat + 2) / 3 ≤ opaqueCount s.raster →
    ∃ t u, exec (.enc .pmem) s = .next t ∧ t.code = .ok ∧
      exec .dec (State.accept { t with arg0 := s.latch.a0 } (encode .dec)) = .next u ∧ u.code = .ok ∧
      ∀ i, i < s.latch.a0.toNat → u.pmemByte i = s.pmemByte i

/-- Capacity (R145): ENC from PMEM and DEC complete with OK exactly when the opaque pixels have enough
channels, else with EndOfSource and RES0 = 3 P_op. -/
def Obligations.CodecSucceedsIffTheRasterHasRoom : Prop :=
  ∀ (i : Instr) (s : State), i = .enc .pmem ∨ i = .dec → s.cfg.Legal → s.RasterBorrowed →
    s.latch.a0.toNat ≤ s.cfg.pmemBytes →
    ∃ t, exec i s = .next t ∧ (t.code = .ok ↔ 8 * s.latch.a0.toNat ≤ 3 * opaqueCount s.raster) ∧
      (t.code ≠ .ok → t.code = .endOfSource ∧ t.res0.toNat = 3 * opaqueCount s.raster)

/-- All that ENC and DEC change (R147), on any exit. -/
def Obligations.CodecFrame : Prop :=
  (∀ s t : State, exec (.enc .pmem) s = .next t →
    t = { s with raster := t.raster, res0 := t.res0, code := t.code, busy := false }) ∧
  (∀ s t : State, exec (.enc .bbs) s = .next t →
    t = { s with raster := t.raster, res0 := t.res0, code := t.code, busy := false,
                 bbs := t.bbs, src := t.src }) ∧
  (∀ s t : State, exec .dec s = .next t →
    t = { s with pmem := t.pmem, res0 := t.res0, code := t.code, busy := false } ∧
    (∀ a, s.latch.a0.toNat ≤ a → t.pmemByte a = s.pmemByte a))

/-- The core never changes a pixel's alpha, a transparent pixel, bits 7 to 1 of a channel, or the
raster's dimensions, whatever the command and its exit (R42, R129, R131). -/
def Obligations.AlphaAndHighBitsNeverChange : Prop :=
  ∀ (i : Instr) (s t : State), s.raster.wf → exec i s = .next t →
    t.raster.width = s.raster.width ∧ t.raster.height = s.raster.height ∧ t.raster.wf ∧
    ∀ x y, x < s.raster.width.toNat → y < s.raster.height.toNat →
      (t.raster.getPixel x y).a = (s.raster.getPixel x y).a ∧
      ((s.raster.getPixel x y).a = 0#8 → t.raster.getPixel x y = s.raster.getPixel x y) ∧
      ∀ c : Channel, ((t.raster.getPixel x y).channel c).toNat / 2 = ((s.raster.getPixel x y).channel c).toNat / 2

/-- DEC's per-bit loop equals the source's group-and-trim form on every PMEM byte (R140). -/
def Obligations.GroupAndTrimEqualsPerBitExtraction : Prop :=
  ∀ (epoch L k : Nat) (m : Memory) (px : Pixel), k < 8 * L →
    ∀ a, pmemRead epoch (extractPixel epoch (8 * L) px { k := k, pmem := m }).pmem a =
      pmemRead epoch (groupAndTrim epoch L k (group px.r px.g px.b) m) a

/-- DEC does not depend on any pixel after the one that holds slot N - 1 (R141): it never reads one. -/
def Obligations.DecReadsNoPixelPastTheLastSlot : Prop :=
  ∀ (s t : State) (r : Raster) (x₀ y₀ : Nat) (c₀ : Channel),
    s.RasterBorrowed → r.wf → r.width = s.raster.width → r.height = s.raster.height →
    0 < s.latch.a0.toNat → (slotOrder s.raster)[8 * s.latch.a0.toNat - 1]? = some (x₀, y₀, c₀) →
    (∀ x y, x < r.width.toNat → y < r.height.toNat →
      x * r.height.toNat + y ≤ x₀ * r.height.toNat + y₀ → r.getPixel x y = s.raster.getPixel x y) →
    exec .dec s = .next t → exec .dec { s with raster := r } = .next { t with raster := r }

/-! ### Status codes and the command cycle -/

/-- The numbers of the codes and which command raises which (R151): code 7 by any illegal word and by no
command, code 8 by none, and no code is 9 or above. -/
def Obligations.CodesRaisedByEachCommand : Prop :=
  ([Code.ok, .outOfRange, .invalidRange, .exhausted, .endOfSource, .invalidArgument, .assertViolation,
     .illegalCommand, .unsupportedFormat].map fun c => c.toBits.toNat) = [0, 1, 2, 3, 4, 5, 6, 7, 8] ∧
  (∀ c : Code, c.toBits.toNat < 9) ∧
  (∀ (i : Instr) (s t : State), exec i s = .next t →
    t.code ∈ codesOf i ∧ t.code ≠ .illegalCommand ∧ t.code ≠ .unsupportedFormat) ∧
  (∀ s : State, wordLegal s.latch.cmd = false → ∃ t, coreTurn s = .next t ∧ t.code = .illegalCommand)

/-- A failing command changes STATUS only, but for BRDBITS, ENC and DEC (R24, R160). The fault event is
the model's own record (log 10). -/
def Obligations.FailingCommandsChangeOnlyStatus : Prop :=
  ∀ (i : Instr) (s t : State), exec i s = .next t → t.code ≠ .ok →
    (reportsProgress i = false ∨ t.code = .invalidArgument) →
    t = { s with code := t.code, busy := false, events := s.events.record t.code }

/-- Every command completes: BUSY goes to 0 (R149, R187). ENC and DEC need the raster sampled at
acceptance (R43). -/
def Obligations.EveryCommandCompletes : Prop :=
  ∀ (i : Instr) (s : State), (needsRaster i = true → s.RasterBorrowed) →
    ∃ t, exec i s = .next t ∧ t.busy = false

/-- What no command changes: CMD, ARG0 and ARG1 (R23), the latched operands (R25), the parameters (R10,
R11) and the reset input (R177). Only BRDBITS and DEC write PMEM (R33). Only ENC changes the raster: only
ENC and DEC reach the pixel port (R40), and DEC changes PMEM, RES0 and STATUS only (R139, R147). The
clauses on epoch, host and turns are about the model's own fields (logs 9, 11 and 2), not the spec's. -/
def Obligations.CommandFrame : Prop :=
  ∀ (i : Instr) (s t : State), exec i s = .next t →
    t.cfg = s.cfg ∧ t.cmd = s.cmd ∧ t.arg0 = s.arg0 ∧ t.arg1 = s.arg1 ∧ t.latch = s.latch ∧
    t.resetHeld = s.resetHeld ∧ t.epoch = s.epoch ∧ t.host = s.host ∧ t.turns = s.turns ∧
    (i ≠ .brdbits → i ≠ .dec → t.pmem = s.pmem) ∧
    ((∀ m, i ≠ .enc m) → t.raster = s.raster)

/-- A command executes from the operands latched at its acceptance: what ARG0 and ARG1 hold while it
runs does not matter (R25, R183). -/
def Obligations.OperandsAreLatched : Prop :=
  ∀ (i : Instr) (s t : State) (v₀ v₁ : Word), exec i s = .next t →
    exec i { s with arg0 := v₀, arg1 := v₁ } = .next { t with arg0 := v₀, arg1 := v₁ }

/-- A CMD write is accepted while BUSY = 0 and stalls while BUSY = 1 (R25, R51). -/
def Obligations.CmdWriteIsAcceptedOrStalls : Prop :=
  ∀ (s : State) (w : Word),
    (s.busy = false → s.resetHeld = false →
      hostDo (.wr .cmd w) s =
        .next { s with
          cmd := w, busy := true
          latch := { cmd := w, a0 := s.arg0, a1 := s.arg1, w := s.raster.width, h := s.raster.height }
          host := { s.host with pc := s.host.pc + 1 } }) ∧
    (s.busy = true → s.resetHeld = false → hostDo (.wr .cmd w) s = .next s)

/-- Writes to ARG0 and ARG1 take effect at once, also while BUSY = 1; writes to read-only registers and
reserved offsets have no effect (R51, R52). -/
def Obligations.OtherRegisterWrites : Prop :=
  ∀ (s : State) (v : Word), s.resetHeld = false →
    hostDo (.wr .arg0 v) s = .next { s with arg0 := v, host := { s.host with pc := s.host.pc + 1 } } ∧
    hostDo (.wr .arg1 v) s = .next { s with arg1 := v, host := { s.host with pc := s.host.pc + 1 } } ∧
    (∀ r, r ∈ [HostReg.res0, .res1, .status, .cfgBuf, .cfgPmem] →
      hostDo (.wr r v) s = .next { s with host := { s.host with pc := s.host.pc + 1 } }) ∧
    (∀ off, 0x20 ≤ off → off ≤ 0xFFC → off % 4 = 0 →
      hostDo (.busWrite (s.cfg.regBase + off) 4 v) s =
        .next { s with host := { s.host with pc := s.host.pc + 1 } })

/-- Register reads never stall and have no side effect: each register's value at its offset (R21), 0 at
a reserved offset (R52). -/
def Obligations.RegisterReads : Prop :=
  ∀ s : State,
    let got := fun v : Word =>
      Host.Outcome.next (φ := Fault) (ρ := Refusal)
        { s with host := { s.host with pc := s.host.pc + 1, reads := v :: s.host.reads } }
    hostDo (.busRead (s.cfg.regBase + 0x00) 4) s = got s.cmd ∧
    hostDo (.busRead (s.cfg.regBase + 0x04) 4) s = got s.arg0 ∧
    hostDo (.busRead (s.cfg.regBase + 0x08) 4) s = got s.arg1 ∧
    hostDo (.busRead (s.cfg.regBase + 0x0C) 4) s = got s.res0 ∧
    hostDo (.busRead (s.cfg.regBase + 0x10) 4) s = got s.res1 ∧
    hostDo (.busRead (s.cfg.regBase + 0x14) 4) s = got (statusWord s.busy s.code) ∧
    hostDo (.busRead (s.cfg.regBase + 0x18) 4) s = got (BitVec.ofNat 32 s.cfg.bufBytes) ∧
    hostDo (.busRead (s.cfg.regBase + 0x1C) 4) s = got (BitVec.ofNat 32 s.cfg.pmemBytes) ∧
    (∀ off, 0x20 ≤ off → off ≤ 0xFFC → off % 4 = 0 →
      hostDo (.busRead (s.cfg.regBase + off) 4) s = got 0#32)

/-- The fields of STATUS (R22): BUSY is bit 31, bits 30:4 read 0, CODE is bits 3:0. -/
def Obligations.StatusWordFields : Prop :=
  ∀ (busy : Bool) (code : Code),
    (statusWord busy code).getLsbD 31 = busy ∧
    (∀ n, 4 ≤ n → n ≤ 30 → (statusWord busy code).getLsbD n = false) ∧
    (statusWord busy code).extractLsb' 0 4 = code.toBits

/-- An access that is not one aligned 32-bit word of the window is given no meaning (R50; an address
outside the window is refused by the model's choice, log 13). -/
def Obligations.NonWordAccessesAreRefused : Prop :=
  ∀ (s : State) (addr size : Nat) (v : Word), s.cfg.regBase ≤ addr → addr < s.cfg.regBase + 4096 →
    size ≠ 4 ∨ (addr - s.cfg.regBase) % 4 ≠ 0 →
    hostDo (.busWrite addr size v) s = .refused .nonWordAccess ∧
    hostDo (.busRead addr size) s = .refused .nonWordAccess

/-- The host PMEM port (R35): reads and writes inside PMEM, 0 and no effect beyond it, and both stall
while BUSY = 1. -/
def Obligations.PmemPort : Prop :=
  ∀ (s : State) (a : Nat) (v : Byte),
    (s.busy = true → hostDo (.pw a v) s = .next s ∧ hostDo (.pr a) s = .next s) ∧
    (s.busy = false →
      ∃ w : Word, w.toNat = (if a < s.cfg.pmemBytes then (s.pmemByte a).toNat else 0) ∧
        hostDo (.pr a) s =
          .next { s with host := { s.host with pc := s.host.pc + 1, reads := w :: s.host.reads } }) ∧
    (s.busy = false → s.resetHeld = false → a < s.cfg.pmemBytes →
      ∃ m : Memory,
        hostDo (.pw a v) s = .next { s with pmem := m, host := { s.host with pc := s.host.pc + 1 } } ∧
        pmemRead s.epoch m a = v ∧ ∀ a', a' ≠ a → pmemRead s.epoch m a' = s.pmemByte a') ∧
    (s.busy = false → s.cfg.pmemBytes ≤ a →
      hostDo (.pw a v) s = .next { s with host := { s.host with pc := s.host.pc + 1 } })

/-- The raster and SRC may be replaced while BUSY = 0, which changes no block state; while BUSY = 1 the
model gives it no meaning (R43, R47). -/
def Obligations.BorrowedResourcesChangeOnlyWhileIdle : Prop :=
  ∀ (s : State) (bytes : List Byte) (r : Raster),
    (s.busy = false →
      hostDo (.bindSource bytes) s =
        .next { s with src := bytes, host := { s.host with pc := s.host.pc + 1 } } ∧
      (r.wf →
        hostDo (.bindRaster r) s =
          .next { s with raster := r, host := { s.host with pc := s.host.pc + 1 } })) ∧
    (s.busy = true →
      hostDo (.bindSource bytes) s = .refused .sourceChangedWhileBusy ∧
      hostDo (.bindRaster r) s = .refused .rasterChangedWhileBusy)

/-- WAIT polls until BUSY = 0, and BOK and BNOK branch on the code it saw (R70). -/
def Obligations.HostWaitsAndBranches : Prop :=
  ∀ (s : State) (name i : Nat),
    (s.busy = true → hostDo .wait s = .next s) ∧
    (s.busy = false →
      hostDo .wait s = .next { s with host := { s.host with pc := s.host.pc + 1, waited := s.code } }) ∧
    (s.host.program[i]? = some (.label name) → (∀ j, j < i → s.host.program[j]? ≠ some (.label name)) →
      (s.host.waited = .ok →
        hostDo (.bok name) s = .next { s with host := { s.host with pc := i } } ∧
        hostDo (.bnok name) s = .next { s with host := { s.host with pc := s.host.pc + 1 } }) ∧
      (s.host.waited ≠ .ok →
        hostDo (.bnok name) s = .next { s with host := { s.host with pc := i } } ∧
        hostDo (.bok name) s = .next { s with host := { s.host with pc := s.host.pc + 1 } }))

/-- The host changes no result and no code (R24, R25), no slot (R27), no BBS state (R29), no parameter
(R10, R11) and not the reset input (R177): only a core turn or reset does. While BUSY = 1 it changes
nothing a running command uses (R25, R35, R43, R47, R49). The clauses on epoch, events and turns are about
the model's own fields (logs 9, 10 and 2), not the spec's. -/
def Obligations.HostTurnFrame : Prop :=
  ∀ s t : State, hostTurn s = .next t →
    t.res0 = s.res0 ∧ t.res1 = s.res1 ∧ t.code = s.code ∧ t.slots = s.slots ∧ t.bbs = s.bbs ∧
    t.cfg = s.cfg ∧ t.epoch = s.epoch ∧ t.events = s.events ∧ t.resetHeld = s.resetHeld ∧
    t.turns = s.turns ∧ (s.busy = true → t.busy = true ∧ t.latch = s.latch ∧ t.cmd = s.cmd ∧
      t.pmem = s.pmem ∧ t.raster = s.raster ∧ t.src = s.src)

/-- A command line's expansion (R71) run from an idle block with no other turn scheduled: the operand
writes, the CMD write and the core turn give the command's meaning on those operands. The schedule and the
host's position are the model's own (logs 2 and 11). -/
def Obligations.CommandLineRunsItsCommand : Prop :=
  ∀ (s : State) (c : CommandLine) (before after : List HostAction),
    c.wellFormed = true → s.busy = false → s.resetHeld = false → s.turns = [] →
    s.host.program = before ++ expandCommand c ++ after → s.host.pc = before.length →
    Host.Core.run Sys2Proof.core ((expandCommand c).length) s =
      exec c.instr
        (State.accept
          { s with
            arg0 := (c.v0.map (BitVec.ofInt 32)).getD s.arg0
            arg1 := (c.v1.map (BitVec.ofInt 32)).getD s.arg1
            host := { s.host with pc := before.length + (expandCommand c).length - 1 } }
          (encode c.instr))

/-! ### Reset -/

/-- The state after reset (R176), as the machine starts and when the reset input is asserted; reset
changes neither the raster nor SRC of an idle block. The values of the model's own choice (latched
copies, initial raster and SRC, host record: logs 6, 7, 11) are not part of this statement. -/
def Obligations.ResetValues : Prop :=
  (∀ cfg : Params, AtResetValues cfg (State.resetWith cfg)) ∧
  (∀ s : State, s.resetHeld = false → AtResetValues s.cfg (assertReset s) ∧
    (s.busy = false → (assertReset s).raster = s.raster ∧ (assertReset s).src = s.src))

/-- Asserting reset (R177, R178): every block state at its reset value, PMEM drawn anew, no code
reported; the raster and SRC as they are, or, when a command is abandoned, after some prefix of its
PutPixel calls and of the bytes it would have removed. An ENC with an oversized length makes no PutPixel
call (R132, R136). The latched copies and sampled dimensions, which R176 leaves unspecified, are set aside: what
they hold is the model's choice (log 6) and not part of this statement. The reset count, the fault-event
record, the host and the schedule are the model's own (logs 9, 10, 11 and 2). -/
def Obligations.ResetLeavesAPrefixOfTheAbandonedCommand : Prop :=
  ∀ s : State, s.resetHeld = false →
    (∃ (r : Raster) (src : List Byte) (latch : Latch),
      assertReset s =
        { State.resetWith s.cfg with
          latch := latch, raster := r, src := src, resetHeld := true, epoch := s.epoch + 1, events := s.events,
          host := s.host, turns := s.turns } ∧
      (s.busy = false → r = s.raster ∧ src = s.src) ∧
      (s.busy = true → ∀ m, decode s.latch.cmd = .ok (.enc m) → s.latch.a0.toNat ≤ encLimit m s.cfg →
        ∃ n, r = s.raster.putAll ((encRun m s).1.puts.take n)) ∧
      (s.busy = true → ∀ m, decode s.latch.cmd = .ok (.enc m) → encLimit m s.cfg < s.latch.a0.toNat →
        r = s.raster) ∧
      (s.busy = true → (∀ m, decode s.latch.cmd ≠ .ok (.enc m)) → r = s.raster) ∧
      (s.busy = true → ∀ t, coreTurn s = .next t → ∃ n, n ≤ s.src.length - t.src.length ∧ src = s.src.drop n))

/-- While reset is asserted, host writes to registers and PMEM have no effect; when it is released the
next CMD write is accepted (R177). -/
def Obligations.HeldResetIgnoresWrites : Prop :=
  ∀ (s : State), s.resetHeld = true → s.busy = false →
    (∀ (r : HostReg) (v : Word),
      hostDo (.wr r v) s = .next { s with host := { s.host with pc := s.host.pc + 1 } }) ∧
    (∀ (a : Nat) (v : Byte),
      hostDo (.pw a v) s = .next { s with host := { s.host with pc := s.host.pc + 1 } }) ∧
    (∀ w : Word, ∃ t, hostDo (.wr .cmd w) (releaseReset s) = .next t ∧ t.busy = true ∧ t.latch.cmd = w)

/-! ### Steps and invariants -/

/-- A step runs the decoded command: when the core moves next and the latched word decodes to i, the
step is exec of i with the turn taken off the schedule; an illegal word gives IllegalCommand. The other
turns are the host's and the reset input's; with none scheduled the core moves while BUSY = 1, else the
host (the schedule is the model's own, log 2). -/
def Obligations.StepRunsTheScheduledTurn : Prop :=
  ∀ s : State,
    (∀ i, s.busy = true → (s.turns = [] ∨ s.turns.head? = some .core) → decode s.latch.cmd = .ok i →
      step s = exec i { s with turns := s.turns.tail }) ∧
    (∀ e, s.busy = true → (s.turns = [] ∨ s.turns.head? = some .core) → decode s.latch.cmd = .error e →
      step s = execIllegal { s with turns := s.turns.tail }) ∧
    (s.busy = false → s.turns.head? = some .core → step s = .next { s with turns := s.turns.tail }) ∧
    (s.turns.head? = some .host ∨ (s.turns = [] ∧ s.busy = false) →
      step s = hostTurn { s with turns := s.turns.tail }) ∧
    (s.turns.head? = some .assertReset → step s = .next (assertReset { s with turns := s.turns.tail })) ∧
    (s.turns.head? = some .releaseReset → step s = .next (releaseReset { s with turns := s.turns.tail }))

/-- The step after withFetchWord runs the command of that word on the operands in ARG0 and ARG1 (the
model's way to place a command, log 3). -/
def Obligations.PlacedWordRunsNext : Prop :=
  ∀ (s : State) (i : Instr),
    decodeTableWord 32 (encode i).toNat = some i ∧
    step (s.withFetchWord 32 (encode i).toNat) = exec i (State.accept { s with resetHeld := false } (encode i))

/-- Every step keeps the invariant: parameters legal (R10, R11), cursors within capacity (R27), the BBS
state in range and its valid bytes written (R29, R112), PMEM in canonical form and in range (R33), the
raster an array and, while a command runs, the one sampled (R39, R43), no command under reset (R177), and
no reserved code (R151, R162). The canonical form of the byte lists and the raster's pixel list are the
model's own representation (logs 18 and 16). The parameters never change, and no step clears a fault event (R165; the
record is the model's own, log 10). -/
def Obligations.EveryStepKeepsTheInvariant : Prop :=
  ∀ s t : State, Inv s → step s = .next t →
    Inv t ∧ t.cfg = s.cfg ∧
    (s.events.assertViolation = true → t.events.assertViolation = true) ∧
    (s.events.illegalCommand = true → t.events.illegalCommand = true)

/-- The reset state meets the invariant, for every legal parameter choice and for the instance of
State.reset. -/
def Obligations.ResetMeetsTheInvariant : Prop :=
  (∀ cfg : Params, cfg.Legal → Inv (State.resetWith cfg)) ∧ Inv State.reset
end

