-- ==== Sys2Proof/Laws/State.lean ====
section
/-! SUPPORT. One lemma per field per state update, so that no proof unfolds a record update. -/

namespace Sys2Proof.Machine

/-! ### complete: completion (R25) -/

@[simp] theorem State.complete_cfg (s : State) (c : Code) : (s.complete c).cfg = s.cfg := rfl
@[simp] theorem State.complete_cmd (s : State) (c : Code) : (s.complete c).cmd = s.cmd := rfl
@[simp] theorem State.complete_arg0 (s : State) (c : Code) : (s.complete c).arg0 = s.arg0 := rfl
@[simp] theorem State.complete_arg1 (s : State) (c : Code) : (s.complete c).arg1 = s.arg1 := rfl
@[simp] theorem State.complete_res0 (s : State) (c : Code) : (s.complete c).res0 = s.res0 := rfl
@[simp] theorem State.complete_res1 (s : State) (c : Code) : (s.complete c).res1 = s.res1 := rfl
@[simp] theorem State.complete_code (s : State) (c : Code) : (s.complete c).code = c := rfl
@[simp] theorem State.complete_busy (s : State) (c : Code) : (s.complete c).busy = false := rfl
@[simp] theorem State.complete_latch (s : State) (c : Code) : (s.complete c).latch = s.latch := rfl
@[simp] theorem State.complete_slots (s : State) (c : Code) : (s.complete c).slots = s.slots := rfl
@[simp] theorem State.complete_bbs (s : State) (c : Code) : (s.complete c).bbs = s.bbs := rfl
@[simp] theorem State.complete_pmem (s : State) (c : Code) : (s.complete c).pmem = s.pmem := rfl
@[simp] theorem State.complete_raster (s : State) (c : Code) : (s.complete c).raster = s.raster := rfl
@[simp] theorem State.complete_src (s : State) (c : Code) : (s.complete c).src = s.src := rfl
@[simp] theorem State.complete_resetHeld (s : State) (c : Code) : (s.complete c).resetHeld = s.resetHeld := rfl
@[simp] theorem State.complete_epoch (s : State) (c : Code) : (s.complete c).epoch = s.epoch := rfl
@[simp] theorem State.complete_events (s : State) (c : Code) : (s.complete c).events = s.events.record c := rfl
@[simp] theorem State.complete_host (s : State) (c : Code) : (s.complete c).host = s.host := rfl
@[simp] theorem State.complete_turns (s : State) (c : Code) : (s.complete c).turns = s.turns := rfl

/-! ### setRes0: writing RES0 (R24) -/

@[simp] theorem State.setRes0_cfg (s : State) (v : Word) : (s.setRes0 v).cfg = s.cfg := rfl
@[simp] theorem State.setRes0_cmd (s : State) (v : Word) : (s.setRes0 v).cmd = s.cmd := rfl
@[simp] theorem State.setRes0_arg0 (s : State) (v : Word) : (s.setRes0 v).arg0 = s.arg0 := rfl
@[simp] theorem State.setRes0_arg1 (s : State) (v : Word) : (s.setRes0 v).arg1 = s.arg1 := rfl
@[simp] theorem State.setRes0_res0 (s : State) (v : Word) : (s.setRes0 v).res0 = v := rfl
@[simp] theorem State.setRes0_res1 (s : State) (v : Word) : (s.setRes0 v).res1 = s.res1 := rfl
@[simp] theorem State.setRes0_code (s : State) (v : Word) : (s.setRes0 v).code = s.code := rfl
@[simp] theorem State.setRes0_busy (s : State) (v : Word) : (s.setRes0 v).busy = s.busy := rfl
@[simp] theorem State.setRes0_latch (s : State) (v : Word) : (s.setRes0 v).latch = s.latch := rfl
@[simp] theorem State.setRes0_slots (s : State) (v : Word) : (s.setRes0 v).slots = s.slots := rfl
@[simp] theorem State.setRes0_bbs (s : State) (v : Word) : (s.setRes0 v).bbs = s.bbs := rfl
@[simp] theorem State.setRes0_pmem (s : State) (v : Word) : (s.setRes0 v).pmem = s.pmem := rfl
@[simp] theorem State.setRes0_raster (s : State) (v : Word) : (s.setRes0 v).raster = s.raster := rfl
@[simp] theorem State.setRes0_src (s : State) (v : Word) : (s.setRes0 v).src = s.src := rfl
@[simp] theorem State.setRes0_resetHeld (s : State) (v : Word) : (s.setRes0 v).resetHeld = s.resetHeld := rfl
@[simp] theorem State.setRes0_epoch (s : State) (v : Word) : (s.setRes0 v).epoch = s.epoch := rfl
@[simp] theorem State.setRes0_events (s : State) (v : Word) : (s.setRes0 v).events = s.events := rfl
@[simp] theorem State.setRes0_host (s : State) (v : Word) : (s.setRes0 v).host = s.host := rfl
@[simp] theorem State.setRes0_turns (s : State) (v : Word) : (s.setRes0 v).turns = s.turns := rfl

/-! ### setRes: writing RES0 and RES1 (R24) -/

@[simp] theorem State.setRes_cfg (s : State) (v0 v1 : Word) : (s.setRes v0 v1).cfg = s.cfg := rfl
@[simp] theorem State.setRes_cmd (s : State) (v0 v1 : Word) : (s.setRes v0 v1).cmd = s.cmd := rfl
@[simp] theorem State.setRes_arg0 (s : State) (v0 v1 : Word) : (s.setRes v0 v1).arg0 = s.arg0 := rfl
@[simp] theorem State.setRes_arg1 (s : State) (v0 v1 : Word) : (s.setRes v0 v1).arg1 = s.arg1 := rfl
@[simp] theorem State.setRes_res0 (s : State) (v0 v1 : Word) : (s.setRes v0 v1).res0 = v0 := rfl
@[simp] theorem State.setRes_res1 (s : State) (v0 v1 : Word) : (s.setRes v0 v1).res1 = v1 := rfl
@[simp] theorem State.setRes_code (s : State) (v0 v1 : Word) : (s.setRes v0 v1).code = s.code := rfl
@[simp] theorem State.setRes_busy (s : State) (v0 v1 : Word) : (s.setRes v0 v1).busy = s.busy := rfl
@[simp] theorem State.setRes_latch (s : State) (v0 v1 : Word) : (s.setRes v0 v1).latch = s.latch := rfl
@[simp] theorem State.setRes_slots (s : State) (v0 v1 : Word) : (s.setRes v0 v1).slots = s.slots := rfl
@[simp] theorem State.setRes_bbs (s : State) (v0 v1 : Word) : (s.setRes v0 v1).bbs = s.bbs := rfl
@[simp] theorem State.setRes_pmem (s : State) (v0 v1 : Word) : (s.setRes v0 v1).pmem = s.pmem := rfl
@[simp] theorem State.setRes_raster (s : State) (v0 v1 : Word) : (s.setRes v0 v1).raster = s.raster := rfl
@[simp] theorem State.setRes_src (s : State) (v0 v1 : Word) : (s.setRes v0 v1).src = s.src := rfl
@[simp] theorem State.setRes_resetHeld (s : State) (v0 v1 : Word) : (s.setRes v0 v1).resetHeld = s.resetHeld := rfl
@[simp] theorem State.setRes_epoch (s : State) (v0 v1 : Word) : (s.setRes v0 v1).epoch = s.epoch := rfl
@[simp] theorem State.setRes_events (s : State) (v0 v1 : Word) : (s.setRes v0 v1).events = s.events := rfl
@[simp] theorem State.setRes_host (s : State) (v0 v1 : Word) : (s.setRes v0 v1).host = s.host := rfl
@[simp] theorem State.setRes_turns (s : State) (v0 v1 : Word) : (s.setRes v0 v1).turns = s.turns := rfl

/-! ### setSlot: writing a slot (R27) -/

@[simp] theorem State.setSlot_cfg (s : State) (k : SlotNo) (v : Cursor) : (s.setSlot k v).cfg = s.cfg := rfl
@[simp] theorem State.setSlot_cmd (s : State) (k : SlotNo) (v : Cursor) : (s.setSlot k v).cmd = s.cmd := rfl
@[simp] theorem State.setSlot_arg0 (s : State) (k : SlotNo) (v : Cursor) : (s.setSlot k v).arg0 = s.arg0 := rfl
@[simp] theorem State.setSlot_arg1 (s : State) (k : SlotNo) (v : Cursor) : (s.setSlot k v).arg1 = s.arg1 := rfl
@[simp] theorem State.setSlot_res0 (s : State) (k : SlotNo) (v : Cursor) : (s.setSlot k v).res0 = s.res0 := rfl
@[simp] theorem State.setSlot_res1 (s : State) (k : SlotNo) (v : Cursor) : (s.setSlot k v).res1 = s.res1 := rfl
@[simp] theorem State.setSlot_code (s : State) (k : SlotNo) (v : Cursor) : (s.setSlot k v).code = s.code := rfl
@[simp] theorem State.setSlot_busy (s : State) (k : SlotNo) (v : Cursor) : (s.setSlot k v).busy = s.busy := rfl
@[simp] theorem State.setSlot_latch (s : State) (k : SlotNo) (v : Cursor) : (s.setSlot k v).latch = s.latch := rfl
@[simp] theorem State.setSlot_slots (s : State) (k : SlotNo) (v : Cursor) : (s.setSlot k v).slots = s.slots.set k v := rfl
@[simp] theorem State.setSlot_bbs (s : State) (k : SlotNo) (v : Cursor) : (s.setSlot k v).bbs = s.bbs := rfl
@[simp] theorem State.setSlot_pmem (s : State) (k : SlotNo) (v : Cursor) : (s.setSlot k v).pmem = s.pmem := rfl
@[simp] theorem State.setSlot_raster (s : State) (k : SlotNo) (v : Cursor) : (s.setSlot k v).raster = s.raster := rfl
@[simp] theorem State.setSlot_src (s : State) (k : SlotNo) (v : Cursor) : (s.setSlot k v).src = s.src := rfl
@[simp] theorem State.setSlot_resetHeld (s : State) (k : SlotNo) (v : Cursor) : (s.setSlot k v).resetHeld = s.resetHeld := rfl
@[simp] theorem State.setSlot_epoch (s : State) (k : SlotNo) (v : Cursor) : (s.setSlot k v).epoch = s.epoch := rfl
@[simp] theorem State.setSlot_events (s : State) (k : SlotNo) (v : Cursor) : (s.setSlot k v).events = s.events := rfl
@[simp] theorem State.setSlot_host (s : State) (k : SlotNo) (v : Cursor) : (s.setSlot k v).host = s.host := rfl
@[simp] theorem State.setSlot_turns (s : State) (k : SlotNo) (v : Cursor) : (s.setSlot k v).turns = s.turns := rfl

/-! ### setStream: replacing the BBS state and SRC (R112) -/

@[simp] theorem State.setStream_cfg (s : State) (st : Stream) : (s.setStream st).cfg = s.cfg := rfl
@[simp] theorem State.setStream_cmd (s : State) (st : Stream) : (s.setStream st).cmd = s.cmd := rfl
@[simp] theorem State.setStream_arg0 (s : State) (st : Stream) : (s.setStream st).arg0 = s.arg0 := rfl
@[simp] theorem State.setStream_arg1 (s : State) (st : Stream) : (s.setStream st).arg1 = s.arg1 := rfl
@[simp] theorem State.setStream_res0 (s : State) (st : Stream) : (s.setStream st).res0 = s.res0 := rfl
@[simp] theorem State.setStream_res1 (s : State) (st : Stream) : (s.setStream st).res1 = s.res1 := rfl
@[simp] theorem State.setStream_code (s : State) (st : Stream) : (s.setStream st).code = s.code := rfl
@[simp] theorem State.setStream_busy (s : State) (st : Stream) : (s.setStream st).busy = s.busy := rfl
@[simp] theorem State.setStream_latch (s : State) (st : Stream) : (s.setStream st).latch = s.latch := rfl
@[simp] theorem State.setStream_slots (s : State) (st : Stream) : (s.setStream st).slots = s.slots := rfl
@[simp] theorem State.setStream_bbs (s : State) (st : Stream) : (s.setStream st).bbs = st.bbs := rfl
@[simp] theorem State.setStream_pmem (s : State) (st : Stream) : (s.setStream st).pmem = s.pmem := rfl
@[simp] theorem State.setStream_raster (s : State) (st : Stream) : (s.setStream st).raster = s.raster := rfl
@[simp] theorem State.setStream_src (s : State) (st : Stream) : (s.setStream st).src = st.src := rfl
@[simp] theorem State.setStream_resetHeld (s : State) (st : Stream) : (s.setStream st).resetHeld = s.resetHeld := rfl
@[simp] theorem State.setStream_epoch (s : State) (st : Stream) : (s.setStream st).epoch = s.epoch := rfl
@[simp] theorem State.setStream_events (s : State) (st : Stream) : (s.setStream st).events = s.events := rfl
@[simp] theorem State.setStream_host (s : State) (st : Stream) : (s.setStream st).host = s.host := rfl
@[simp] theorem State.setStream_turns (s : State) (st : Stream) : (s.setStream st).turns = s.turns := rfl

/-! ### accept: acceptance (R25) -/

@[simp] theorem State.accept_cfg (s : State) (w : Word) : (s.accept w).cfg = s.cfg := rfl
@[simp] theorem State.accept_cmd (s : State) (w : Word) : (s.accept w).cmd = w := rfl
@[simp] theorem State.accept_arg0 (s : State) (w : Word) : (s.accept w).arg0 = s.arg0 := rfl
@[simp] theorem State.accept_arg1 (s : State) (w : Word) : (s.accept w).arg1 = s.arg1 := rfl
@[simp] theorem State.accept_res0 (s : State) (w : Word) : (s.accept w).res0 = s.res0 := rfl
@[simp] theorem State.accept_res1 (s : State) (w : Word) : (s.accept w).res1 = s.res1 := rfl
@[simp] theorem State.accept_code (s : State) (w : Word) : (s.accept w).code = s.code := rfl
@[simp] theorem State.accept_busy (s : State) (w : Word) : (s.accept w).busy = true := rfl
@[simp] theorem State.accept_latch (s : State) (w : Word) : (s.accept w).latch = { cmd := w, a0 := s.arg0, a1 := s.arg1, w := s.raster.width, h := s.raster.height } := rfl
@[simp] theorem State.accept_slots (s : State) (w : Word) : (s.accept w).slots = s.slots := rfl
@[simp] theorem State.accept_bbs (s : State) (w : Word) : (s.accept w).bbs = s.bbs := rfl
@[simp] theorem State.accept_pmem (s : State) (w : Word) : (s.accept w).pmem = s.pmem := rfl
@[simp] theorem State.accept_raster (s : State) (w : Word) : (s.accept w).raster = s.raster := rfl
@[simp] theorem State.accept_src (s : State) (w : Word) : (s.accept w).src = s.src := rfl
@[simp] theorem State.accept_resetHeld (s : State) (w : Word) : (s.accept w).resetHeld = s.resetHeld := rfl
@[simp] theorem State.accept_epoch (s : State) (w : Word) : (s.accept w).epoch = s.epoch := rfl
@[simp] theorem State.accept_events (s : State) (w : Word) : (s.accept w).events = s.events := rfl
@[simp] theorem State.accept_host (s : State) (w : Word) : (s.accept w).host = s.host := rfl
@[simp] theorem State.accept_turns (s : State) (w : Word) : (s.accept w).turns = s.turns := rfl

/-! ### hostNext: the host going on (R70) -/

@[simp] theorem State.hostNext_cfg (s : State) : s.hostNext.cfg = s.cfg := rfl
@[simp] theorem State.hostNext_cmd (s : State) : s.hostNext.cmd = s.cmd := rfl
@[simp] theorem State.hostNext_arg0 (s : State) : s.hostNext.arg0 = s.arg0 := rfl
@[simp] theorem State.hostNext_arg1 (s : State) : s.hostNext.arg1 = s.arg1 := rfl
@[simp] theorem State.hostNext_res0 (s : State) : s.hostNext.res0 = s.res0 := rfl
@[simp] theorem State.hostNext_res1 (s : State) : s.hostNext.res1 = s.res1 := rfl
@[simp] theorem State.hostNext_code (s : State) : s.hostNext.code = s.code := rfl
@[simp] theorem State.hostNext_busy (s : State) : s.hostNext.busy = s.busy := rfl
@[simp] theorem State.hostNext_latch (s : State) : s.hostNext.latch = s.latch := rfl
@[simp] theorem State.hostNext_slots (s : State) : s.hostNext.slots = s.slots := rfl
@[simp] theorem State.hostNext_bbs (s : State) : s.hostNext.bbs = s.bbs := rfl
@[simp] theorem State.hostNext_pmem (s : State) : s.hostNext.pmem = s.pmem := rfl
@[simp] theorem State.hostNext_raster (s : State) : s.hostNext.raster = s.raster := rfl
@[simp] theorem State.hostNext_src (s : State) : s.hostNext.src = s.src := rfl
@[simp] theorem State.hostNext_resetHeld (s : State) : s.hostNext.resetHeld = s.resetHeld := rfl
@[simp] theorem State.hostNext_epoch (s : State) : s.hostNext.epoch = s.epoch := rfl
@[simp] theorem State.hostNext_events (s : State) : s.hostNext.events = s.events := rfl
@[simp] theorem State.hostNext_host (s : State) : s.hostNext.host = { s.host with pc := s.host.pc + 1 } := rfl
@[simp] theorem State.hostNext_turns (s : State) : s.hostNext.turns = s.turns := rfl

/-! ### hostGot: the host having read a value (R70) -/

@[simp] theorem State.hostGot_cfg (s : State) (v : Word) : (s.hostGot v).cfg = s.cfg := rfl
@[simp] theorem State.hostGot_cmd (s : State) (v : Word) : (s.hostGot v).cmd = s.cmd := rfl
@[simp] theorem State.hostGot_arg0 (s : State) (v : Word) : (s.hostGot v).arg0 = s.arg0 := rfl
@[simp] theorem State.hostGot_arg1 (s : State) (v : Word) : (s.hostGot v).arg1 = s.arg1 := rfl
@[simp] theorem State.hostGot_res0 (s : State) (v : Word) : (s.hostGot v).res0 = s.res0 := rfl
@[simp] theorem State.hostGot_res1 (s : State) (v : Word) : (s.hostGot v).res1 = s.res1 := rfl
@[simp] theorem State.hostGot_code (s : State) (v : Word) : (s.hostGot v).code = s.code := rfl
@[simp] theorem State.hostGot_busy (s : State) (v : Word) : (s.hostGot v).busy = s.busy := rfl
@[simp] theorem State.hostGot_latch (s : State) (v : Word) : (s.hostGot v).latch = s.latch := rfl
@[simp] theorem State.hostGot_slots (s : State) (v : Word) : (s.hostGot v).slots = s.slots := rfl
@[simp] theorem State.hostGot_bbs (s : State) (v : Word) : (s.hostGot v).bbs = s.bbs := rfl
@[simp] theorem State.hostGot_pmem (s : State) (v : Word) : (s.hostGot v).pmem = s.pmem := rfl
@[simp] theorem State.hostGot_raster (s : State) (v : Word) : (s.hostGot v).raster = s.raster := rfl
@[simp] theorem State.hostGot_src (s : State) (v : Word) : (s.hostGot v).src = s.src := rfl
@[simp] theorem State.hostGot_resetHeld (s : State) (v : Word) : (s.hostGot v).resetHeld = s.resetHeld := rfl
@[simp] theorem State.hostGot_epoch (s : State) (v : Word) : (s.hostGot v).epoch = s.epoch := rfl
@[simp] theorem State.hostGot_events (s : State) (v : Word) : (s.hostGot v).events = s.events := rfl
@[simp] theorem State.hostGot_host (s : State) (v : Word) : (s.hostGot v).host = { s.host with pc := s.host.pc + 1, reads := v :: s.host.reads } := rfl
@[simp] theorem State.hostGot_turns (s : State) (v : Word) : (s.hostGot v).turns = s.turns := rfl

/-! ### releaseReset (R177) -/

@[simp] theorem releaseReset_cfg (s : State) : (releaseReset s).cfg = s.cfg := rfl
@[simp] theorem releaseReset_cmd (s : State) : (releaseReset s).cmd = s.cmd := rfl
@[simp] theorem releaseReset_arg0 (s : State) : (releaseReset s).arg0 = s.arg0 := rfl
@[simp] theorem releaseReset_arg1 (s : State) : (releaseReset s).arg1 = s.arg1 := rfl
@[simp] theorem releaseReset_res0 (s : State) : (releaseReset s).res0 = s.res0 := rfl
@[simp] theorem releaseReset_res1 (s : State) : (releaseReset s).res1 = s.res1 := rfl
@[simp] theorem releaseReset_code (s : State) : (releaseReset s).code = s.code := rfl
@[simp] theorem releaseReset_busy (s : State) : (releaseReset s).busy = s.busy := rfl
@[simp] theorem releaseReset_latch (s : State) : (releaseReset s).latch = s.latch := rfl
@[simp] theorem releaseReset_slots (s : State) : (releaseReset s).slots = s.slots := rfl
@[simp] theorem releaseReset_bbs (s : State) : (releaseReset s).bbs = s.bbs := rfl
@[simp] theorem releaseReset_pmem (s : State) : (releaseReset s).pmem = s.pmem := rfl
@[simp] theorem releaseReset_raster (s : State) : (releaseReset s).raster = s.raster := rfl
@[simp] theorem releaseReset_src (s : State) : (releaseReset s).src = s.src := rfl
@[simp] theorem releaseReset_resetHeld (s : State) : (releaseReset s).resetHeld = false := rfl
@[simp] theorem releaseReset_epoch (s : State) : (releaseReset s).epoch = s.epoch := rfl
@[simp] theorem releaseReset_events (s : State) : (releaseReset s).events = s.events := rfl
@[simp] theorem releaseReset_host (s : State) : (releaseReset s).host = s.host := rfl
@[simp] theorem releaseReset_turns (s : State) : (releaseReset s).turns = s.turns := rfl

/-! ### withFetchWord (log 3) -/

@[simp] theorem State.withFetchWord_cfg (s : State) (n w : Nat) :
    (s.withFetchWord n w).cfg = s.cfg := rfl
@[simp] theorem State.withFetchWord_cmd (s : State) (n w : Nat) :
    (s.withFetchWord n w).cmd = tableWord n w := rfl
@[simp] theorem State.withFetchWord_arg0 (s : State) (n w : Nat) :
    (s.withFetchWord n w).arg0 = s.arg0 := rfl
@[simp] theorem State.withFetchWord_arg1 (s : State) (n w : Nat) :
    (s.withFetchWord n w).arg1 = s.arg1 := rfl
@[simp] theorem State.withFetchWord_res0 (s : State) (n w : Nat) :
    (s.withFetchWord n w).res0 = s.res0 := rfl
@[simp] theorem State.withFetchWord_res1 (s : State) (n w : Nat) :
    (s.withFetchWord n w).res1 = s.res1 := rfl
@[simp] theorem State.withFetchWord_code (s : State) (n w : Nat) :
    (s.withFetchWord n w).code = s.code := rfl
@[simp] theorem State.withFetchWord_busy (s : State) (n w : Nat) :
    (s.withFetchWord n w).busy = true := rfl
@[simp] theorem State.withFetchWord_latch (s : State) (n w : Nat) :
    (s.withFetchWord n w).latch = { cmd := tableWord n w, a0 := s.arg0, a1 := s.arg1, w := s.raster.width, h := s.raster.height } := rfl
@[simp] theorem State.withFetchWord_slots (s : State) (n w : Nat) :
    (s.withFetchWord n w).slots = s.slots := rfl
@[simp] theorem State.withFetchWord_bbs (s : State) (n w : Nat) :
    (s.withFetchWord n w).bbs = s.bbs := rfl
@[simp] theorem State.withFetchWord_pmem (s : State) (n w : Nat) :
    (s.withFetchWord n w).pmem = s.pmem := rfl
@[simp] theorem State.withFetchWord_raster (s : State) (n w : Nat) :
    (s.withFetchWord n w).raster = s.raster := rfl
@[simp] theorem State.withFetchWord_src (s : State) (n w : Nat) :
    (s.withFetchWord n w).src = s.src := rfl
@[simp] theorem State.withFetchWord_resetHeld (s : State) (n w : Nat) :
    (s.withFetchWord n w).resetHeld = false := rfl
@[simp] theorem State.withFetchWord_epoch (s : State) (n w : Nat) :
    (s.withFetchWord n w).epoch = s.epoch := rfl
@[simp] theorem State.withFetchWord_events (s : State) (n w : Nat) :
    (s.withFetchWord n w).events = s.events := rfl
@[simp] theorem State.withFetchWord_host (s : State) (n w : Nat) :
    (s.withFetchWord n w).host = s.host := rfl
@[simp] theorem State.withFetchWord_turns (s : State) (n w : Nat) :
    (s.withFetchWord n w).turns = .core :: s.turns := rfl

/-! ### Derived readings -/

@[simp] theorem State.slot_setSlot (s : State) (k c : SlotNo) (v : Cursor) :
    (s.setSlot k v).slot c = (s.slots.set k v).get c := rfl
@[simp] theorem State.stream_setStream (s : State) (st : Stream) : (s.setStream st).stream = st := rfl
@[simp] theorem State.stream_bbs (s : State) : s.stream.bbs = s.bbs := rfl
@[simp] theorem State.stream_src (s : State) : s.stream.src = s.src := rfl
@[simp] theorem State.pmemByte_complete (s : State) (c : Code) (a : Nat) :
    (s.complete c).pmemByte a = s.pmemByte a := rfl
@[simp] theorem State.slot_complete (s : State) (c : Code) (k : SlotNo) : (s.complete c).slot k = s.slot k := rfl

end Sys2Proof.Machine
end

