-- ==== Sys2Proof/Laws/Ops.lean ====
section
/-! SUPPORT. What each shared operation does, said once: memories and their canonical form, slots, the
byte source, the raster, the scan order, completion. -/

namespace Sys2Proof.Machine

/-! ### Memories -/

@[simp] theorem Memory.load?_nil (a : Nat) : Memory.load? [] a = none := rfl

/-- A byte written is the byte read there; every other address reads as before. -/
theorem Memory.load?_store (m : Memory) (a a' : Nat) (v : Byte) :
    Memory.load? (Memory.store m a v) a' = if a = a' then some v else Memory.load? m a' := by
  induction m with
  | nil => simp [Memory.store, Memory.load?]
  | cons c m ih =>
    obtain ⟨b, w⟩ := c
    simp only [Memory.store]
    split
    · simp [Memory.load?]
    · split
      · subst_vars
        by_cases h : b = a' <;> simp [Memory.load?, h]
      · simp only [Memory.load?, ih]
        split <;> split <;> simp_all

@[simp] theorem Memory.load?_store_self (m : Memory) (a : Nat) (v : Byte) :
    Memory.load? (Memory.store m a v) a = some v := by simp [Memory.load?_store]

theorem Memory.load?_store_other (m : Memory) {a a' : Nat} (v : Byte) (h : a ≠ a') :
    Memory.load? (Memory.store m a v) a' = Memory.load? m a' := by simp [Memory.load?_store, h]

/-- The addresses of a memory after a store: the old ones and the one stored to. -/
theorem Memory.mem_store {m : Memory} {a : Nat} {v : Byte} {c : Host.Cell}
    (h : c ∈ Memory.store m a v) : c = (a, v) ∨ c ∈ m := by
  induction m with
  | nil => simpa [Memory.store] using h
  | cons d m ih =>
    obtain ⟨b, w⟩ := d
    simp only [Memory.store] at h
    split at h
    · simpa using h
    · split at h
      · rcases List.mem_cons.1 h with h | h
        · exact .inl h
        · exact .inr (List.mem_cons_of_mem _ h)
      · rcases List.mem_cons.1 h with h | h
        · exact .inr (h ▸ List.mem_cons_self ..)
        · exact (ih h).imp id (List.mem_cons_of_mem _)

/-- A store keeps the canonical form. -/
theorem Memory.wf_store {m : Memory} (h : Memory.wf m) (a : Nat) (v : Byte) :
    Memory.wf (Memory.store m a v) := by
  induction m with
  | nil => simp [Memory.store]
  | cons c m ih =>
    obtain ⟨b, w⟩ := c
    obtain ⟨hlt, hm⟩ := List.pairwise_cons.1 h
    simp only [Memory.store]
    split
    · refine List.pairwise_cons.2 ⟨fun c hc => ?_, h⟩
      rcases List.mem_cons.1 hc with hc | hc
      · subst hc; assumption
      · have := hlt c hc
        simp only at this ⊢
        omega
    · split
      · refine List.pairwise_cons.2 ⟨fun c hc => ?_, hm⟩
        have := hlt c hc
        simp only at this ⊢
        omega
      · refine List.pairwise_cons.2 ⟨fun c hc => ?_, ih hm⟩
        rcases Memory.mem_store hc with hc | hc
        · subst hc
          simp only
          omega
        · exact hlt c hc

/-- A store below a bound keeps every address below it. -/
theorem Memory.below_store {m : Memory} {n a : Nat} (h : Memory.below m n) (ha : a < n) (v : Byte) :
    Memory.below (Memory.store m a v) n := by
  intro c hc
  rcases Memory.mem_store hc with hc | hc
  · subst hc; exact ha
  · exact h c hc

/-- Consecutive stores: the address `base + i` reads the i-th byte, every other address as before. -/
theorem Memory.load?_storeAll (bs : List Byte) (m : Memory) (base a : Nat) :
    Memory.load? (Memory.storeAll m base bs) a =
      if base ≤ a ∧ a < base + bs.length then bs[a - base]? else Memory.load? m a := by
  induction bs generalizing m base with
  | nil =>
    simp only [Memory.storeAll, List.length_nil, Nat.add_zero]
    rw [if_neg (by omega)]
  | cons b bs ih =>
    simp only [Memory.storeAll, ih, Memory.load?_store, List.length_cons]
    by_cases h : base = a
    · subst h
      simp
    · by_cases h2 : base + 1 ≤ a ∧ a < base + 1 + bs.length
      · have h3 : base ≤ a ∧ a < base + (bs.length + 1) := by omega
        have h4 : a - base = (a - (base + 1)) + 1 := by omega
        simp [h2, h3, h4]
      · have h3 : ¬ (base ≤ a ∧ a < base + (bs.length + 1)) := by omega
        rw [if_neg h2, if_neg h, if_neg h3]

theorem Memory.wf_storeAll (bs : List Byte) {m : Memory} (h : Memory.wf m) (base : Nat) :
    Memory.wf (Memory.storeAll m base bs) := by
  induction bs generalizing m base with
  | nil => exact h
  | cons b bs ih => exact ih (Memory.wf_store h _ _) _

theorem Memory.below_storeAll (bs : List Byte) {m : Memory} {n base : Nat} (h : Memory.below m n)
    (hb : base + bs.length ≤ n) : Memory.below (Memory.storeAll m base bs) n := by
  induction bs generalizing m base with
  | nil => exact h
  | cons b bs ih =>
    simp only [List.length_cons] at hb
    exact ih (Memory.below_store h (by omega) _) (by omega)

/-- Clearing reads as 0 in the cleared range and as before elsewhere. -/
theorem load?_pmemClear (m : Memory) (base n a : Nat) :
    Memory.load? (pmemClear m base n) a =
      if base ≤ a ∧ a < base + n then some 0#8 else Memory.load? m a := by
  induction n with
  | zero => rw [Nat.add_zero, if_neg (by omega)]; simp [pmemClear]
  | succ n ih =>
    have hs : pmemClear m base (n + 1) = pmemWrite (pmemClear m base n) (base + n) 0#8 := by
      simp [pmemClear, List.range_succ]
    rw [hs, pmemWrite, Memory.load?_store, ih]
    by_cases h : base + n = a
    · have h3 : base ≤ a ∧ a < base + (n + 1) := by omega
      simp [h, h3]
    · by_cases h2 : base ≤ a ∧ a < base + n
      · have h3 : base ≤ a ∧ a < base + (n + 1) := by omega
        simp [h, h2, h3]
      · have h3 : ¬ (base ≤ a ∧ a < base + (n + 1)) := by omega
        simp [h, h2, h3]

theorem pmemClear_succ (m : Memory) (base n : Nat) :
    pmemClear m base (n + 1) = pmemWrite (pmemClear m base n) (base + n) 0#8 := by
  simp [pmemClear, List.range_succ]

theorem wf_pmemClear {m : Memory} (h : Memory.wf m) (base n : Nat) : Memory.wf (pmemClear m base n) := by
  induction n with
  | zero => simpa [pmemClear] using h
  | succ n ih => exact pmemClear_succ m base n ▸ Memory.wf_store ih _ _

theorem below_pmemClear {m : Memory} {base n k : Nat} (h : Memory.below m k) (hb : base + n ≤ k) :
    Memory.below (pmemClear m base n) k := by
  induction n with
  | zero => simpa [pmemClear] using h
  | succ n ih => exact pmemClear_succ m base n ▸ Memory.below_store (ih (by omega)) (by omega) _

/-- ORing a bit in: only the byte at `a` changes. -/
theorem pmemRead_pmemOrBit (epoch : Nat) (m : Memory) (a i : Nat) (b : Bool) (a' : Nat) :
    pmemRead epoch (pmemOrBit epoch m a i b) a' =
      if a = a' then pmemRead epoch m a ||| placeBit b i else pmemRead epoch m a' := by
  by_cases h : a = a' <;> simp [pmemOrBit, pmemWrite, pmemRead, Memory.load?_store, h]

theorem wf_pmemOrBit {m : Memory} (h : Memory.wf m) (epoch a i : Nat) (b : Bool) :
    Memory.wf (pmemOrBit epoch m a i b) := Memory.wf_store h _ _

theorem below_pmemOrBit {m : Memory} {n a : Nat} (h : Memory.below m n) (ha : a < n) (epoch i : Nat)
    (b : Bool) : Memory.below (pmemOrBit epoch m a i b) n := Memory.below_store h ha _

/-- The slide keeps the canonical form. -/
theorem wf_slideBytes {m : Memory} (h : Memory.wf m) (epoch rs ret : Nat) :
    Memory.wf (slideBytes epoch rs ret m) := by
  induction ret with
  | zero => simpa [slideBytes] using h
  | succ n ih =>
    have hs : slideBytes epoch rs (n + 1) m =
        Memory.store (slideBytes epoch rs n m) n (bufRead epoch (slideBytes epoch rs n m) (rs + n)) := by
      simp [slideBytes, List.range_succ]
    exact hs ▸ Memory.wf_store ih _ _

@[simp] theorem slideBytes_zero (epoch rs : Nat) (m : Memory) : slideBytes epoch rs 0 m = m := rfl

/-! ### Slots -/

theorem Slots.get_set (t : Slots) (k c : SlotNo) (v : Cursor) :
    (t.set k v).get c = if k = c then v else t.get c := by
  revert c k
  intro k c
  match k, c with
  | 0, 0 | 0, 1 | 0, 2 | 0, 3 | 1, 0 | 1, 1 | 1, 2 | 1, 3 | 2, 0 | 2, 1 | 2, 2 | 2, 3 | 3, 0 | 3, 1
  | 3, 2 | 3, 3 => rfl

@[simp] theorem Slots.get_set_self (t : Slots) (k : SlotNo) (v : Cursor) : (t.set k v).get k = v := by
  simp [Slots.get_set]

theorem Slots.get_set_other (t : Slots) {k c : SlotNo} (v : Cursor) (h : k ≠ c) :
    (t.set k v).get c = t.get c := by simp [Slots.get_set, h]

/-! ### The byte source -/

@[simp] theorem srcEmpty_iff (src : List Byte) : srcEmpty src = true ↔ src = [] := by
  simp [srcEmpty]

/-- The bytes an SrcRead returns and the SRC it leaves are together the SRC before (R44, R45). -/
theorem srcRead_append (k : Nat) (src : List Byte) : (srcRead k src).1 ++ (srcRead k src).2 = src := by
  simp [srcRead]

@[simp] theorem srcRead_length (k : Nat) (src : List Byte) :
    (srcRead k src).1.length = min k src.length := by simp [srcRead]

/-! ### The raster -/

@[simp] theorem Raster.putPixel_width (r : Raster) (x y : Nat) (p : Pixel) :
    (r.putPixel x y p).width = r.width := rfl

@[simp] theorem Raster.putPixel_height (r : Raster) (x y : Nat) (p : Pixel) :
    (r.putPixel x y p).height = r.height := rfl

theorem Raster.wf_putPixel {r : Raster} (h : r.wf) (x y : Nat) (p : Pixel) : (r.putPixel x y p).wf := by
  have hl : r.pixels.length = r.width.toNat * r.height.toNat := h
  simpa [Raster.wf, Raster.putPixel] using hl

@[simp] theorem Raster.putAll_nil (r : Raster) : r.putAll [] = r := rfl

@[simp] theorem Raster.putAll_cons (r : Raster) (p : PutPixel) (ps : List PutPixel) :
    r.putAll (p :: ps) = (r.putPixel p.x p.y p.px).putAll ps := rfl

theorem Raster.putAll_append (r : Raster) (ps qs : List PutPixel) :
    r.putAll (ps ++ qs) = (r.putAll ps).putAll qs := by simp [Raster.putAll]

@[simp] theorem Raster.putAll_width (r : Raster) (ps : List PutPixel) : (r.putAll ps).width = r.width := by
  induction ps generalizing r with
  | nil => rfl
  | cons p ps ih => simp [ih]

@[simp] theorem Raster.putAll_height (r : Raster) (ps : List PutPixel) :
    (r.putAll ps).height = r.height := by
  induction ps generalizing r with
  | nil => rfl
  | cons p ps ih => simp [ih]

theorem Raster.wf_putAll {r : Raster} (h : r.wf) (ps : List PutPixel) : (r.putAll ps).wf := by
  induction ps generalizing r with
  | nil => exact h
  | cons p ps ih => exact ih (Raster.wf_putPixel h ..)

/-- A position of the raster lies inside its pixel list. -/
theorem position_lt {w h x y : Nat} (hx : x < w) (hy : y < h) : x * h + y < w * h := by
  have : (x + 1) * h ≤ w * h := Nat.mul_le_mul_right _ hx
  rw [Nat.add_mul, Nat.one_mul] at this
  omega

/-- Two positions with y inside the raster are equal only when both coordinates are. -/
theorem position_inj {h x y x' y' : Nat} (hy : y < h) (hy' : y' < h)
    (e : x * h + y = x' * h + y') : x = x' ∧ y = y' := by
  have h0 : 0 < h := by omega
  have hx : x = x' := by
    have h1 : (x * h + y) / h = x := by
      rw [Nat.mul_comm, Nat.mul_add_div h0, Nat.div_eq_of_lt hy, Nat.add_zero]
    have h2 : (x' * h + y') / h = x' := by
      rw [Nat.mul_comm, Nat.mul_add_div h0, Nat.div_eq_of_lt hy', Nat.add_zero]
    rw [← h1, ← h2, e]
  subst hx
  exact ⟨rfl, by omega⟩

/-- GetPixel after PutPixel of the same pixel (R41). -/
theorem Raster.getPixel_putPixel_self {r : Raster} (hr : r.wf) {x y : Nat} (hx : x < r.width.toNat)
    (hy : y < r.height.toNat) (p : Pixel) : (r.putPixel x y p).getPixel x y = p := by
  have := position_lt hx hy
  have hl : r.pixels.length = r.width.toNat * r.height.toNat := hr
  rw [← hl] at this
  simp [Raster.getPixel, Raster.putPixel, List.getD_eq_getElem?_getD, this]

/-- PutPixel leaves every other pixel alone. -/
theorem Raster.getPixel_putPixel_other {r : Raster} {x y x' y' : Nat} (hy : y < r.height.toNat)
    (hy' : y' < r.height.toNat) (hne : ¬ (x = x' ∧ y = y')) (p : Pixel) :
    (r.putPixel x y p).getPixel x' y' = r.getPixel x' y' := by
  have : x * r.height.toNat + y ≠ x' * r.height.toNat + y' := fun e => hne (position_inj hy hy' e)
  simp [Raster.getPixel, Raster.putPixel, List.getD_eq_getElem?_getD, this]

/-! ### The scan order -/

/-- The scan visits exactly the pixels of the raster (R128). -/
@[simp] theorem mem_scanOrder (w h x y : Nat) : (x, y) ∈ scanOrder w h ↔ x < w ∧ y < h := by
  simp [scanOrder]

@[simp] theorem length_scanOrder (w h : Nat) : (scanOrder w h).length = w * h := by
  simp [scanOrder, List.length_flatMap]

/-- The scan visits no pixel twice. -/
theorem nodup_scanOrder (w h : Nat) : (scanOrder w h).Nodup := by
  refine List.nodup_flatMap.2 ⟨fun x _ => ?_, ?_⟩
  · exact List.nodup_range.map fun a b e => by simpa using e
  · refine List.nodup_range.imp fun {x x'} hne => ?_
    intro p hp hp'
    simp only [List.mem_map] at hp hp'
    obtain ⟨_, _, rfl⟩ := hp
    obtain ⟨_, _, e⟩ := hp'
    exact hne (by simpa using (congrArg Prod.fst e).symm)

/-! ### Completion -/

@[simp] theorem raise_eq_next (c : Code) (s t : State) : raise c s = .next t ↔ s.complete c = t := by
  simp [raise]

@[simp] theorem finish_eq_next (s t : State) : finish s = .next t ↔ s.complete .ok = t := by
  simp [finish]

@[simp] theorem FaultEvents.record_of_defined (e : FaultEvents) {c : Code} (h : c ≠ .assertViolation)
    (h' : c ≠ .illegalCommand) : e.record c = e := by
  cases c <;> first | rfl | exact absurd rfl h | exact absurd rfl h'

end Sys2Proof.Machine
end

