-- ==== Sys2Proof/Laws/PerInstr.lean ====
section
/-! SUPPORT. The family EncodesLegally: every command's word is legal by the table of R66. -/

namespace Sys2Proof.Laws.EncodesLegally

/-- The command's word matches a row of the legality table (R66). -/
def Statement (i : Instr) : Prop := wordLegal (encode i) = true

theorem addr : Statement .addr := by unfold Statement; decide
theorem mask : Statement .mask := by unfold Statement; decide
theorem cnew (ca : SlotNo) : Statement (.cnew ca) := by revert ca; unfold Statement; decide
theorem cpos (ca : SlotNo) : Statement (.cpos ca) := by revert ca; unfold Statement; decide
theorem cadv (ca : SlotNo) : Statement (.cadv ca) := by revert ca; unfold Statement; decide
theorem crem (ca : SlotNo) : Statement (.crem ca) := by revert ca; unfold Statement; decide
theorem cshift (ca : SlotNo) : Statement (.cshift ca) := by revert ca; unfold Statement; decide
theorem ccmp (ca cb : SlotNo) : Statement (.ccmp ca cb) := by revert ca cb; unfold Statement; decide
theorem csub (ca cb : SlotNo) : Statement (.csub ca cb) := by revert ca cb; unfold Statement; decide
theorem cget (ca : SlotNo) : Statement (.cget ca) := by revert ca; unfold Statement; decide
theorem binit : Statement .binit := by unfold Statement; decide
theorem brdbit : Statement .brdbit := by unfold Statement; decide
theorem brdbits : Statement .brdbits := by unfold Statement; decide
theorem beos : Statement .beos := by unfold Statement; decide
theorem bget : Statement .bget := by unfold Statement; decide
theorem enc (m : PayloadSource) : Statement (.enc m) := by cases m <;> (unfold Statement; decide)
theorem dec : Statement .dec := by unfold Statement; decide

end Sys2Proof.Laws.EncodesLegally
end

