-- ==== Sys2Proof/Laws/Units.lean ====
section
/-! SUPPORT. What the internal procedures of the BBS and the CODEC can do, said once. -/

namespace Sys2Proof.Machine

/-! ### BBS -/

/-- A refill starts only at or past the window's end, so it retains nothing (R126). -/
theorem retained_eq_zero {st : Stream} (h : st.bbs.flat.toNat ≥ st.bbs.fill * 8) :
    st.bbs.fill - st.bbs.flat.toNat >>> 3 = 0 := by
  rw [Nat.shiftRight_eq_div_pow]
  omega

/-- What a refill leaves: the first bytes of SRC at the start of BUF, the cursor at its bit offset
(R113, R126). -/
theorem slideRefill_eq {cfg : Params} {epoch : Nat} {st : Stream}
    (h : st.bbs.flat.toNat ≥ st.bbs.fill * 8) :
    slideRefill cfg epoch st =
      { bbs :=
          { buf := Memory.storeAll st.bbs.buf 0 (st.src.take cfg.bufBytes)
            fill := min cfg.bufBytes st.src.length
            flat := BitVec.ofNat 32 (st.bbs.flat.toNat % 8) }
        src := st.src.drop cfg.bufBytes } := by
  have h8 : st.bbs.flat.toNat - 8 * (st.bbs.flat.toNat >>> 3) = st.bbs.flat.toNat % 8 := by
    rw [Nat.shiftRight_eq_div_pow]
    omega
  simp only [slideRefill, retained_eq_zero h, slideBytes_zero, srcRead, Nat.sub_zero, Nat.zero_add,
    List.length_take, h8]

/-- The three situations of a read (R115). -/
theorem readyWindow_cases (cfg : Params) (epoch : Nat) (st : Stream) :
    (st.bbs.flat.toNat < st.bbs.fill * 8 ∧ readyWindow cfg epoch st = some st) ∨
    (st.bbs.flat.toNat ≥ st.bbs.fill * 8 ∧ st.src = [] ∧ readyWindow cfg epoch st = none) ∨
    (st.bbs.flat.toNat ≥ st.bbs.fill * 8 ∧ st.src ≠ [] ∧
      readyWindow cfg epoch st = some (slideRefill cfg epoch st)) := by
  by_cases h : st.bbs.flat.toNat ≥ st.bbs.fill * 8
  · by_cases hs : st.src = []
    · exact .inr (.inl ⟨h, hs, by simp [readyWindow, h, hs]⟩)
    · exact .inr (.inr ⟨h, hs, by simp [readyWindow, h, srcEmpty, hs]⟩)
  · exact .inl ⟨by omega, by simp [readyWindow, h]⟩

/-- A read answers EOS exactly when the window is used up and SRC is empty (R122). -/
theorem readBit_eq_none_iff (cfg : Params) (epoch : Nat) (st : Stream) :
    readBit cfg epoch st = none ↔ st.bbs.flat.toNat ≥ st.bbs.fill * 8 ∧ st.src = [] := by
  rcases readyWindow_cases cfg epoch st with ⟨h, e⟩ | ⟨h, hs, e⟩ | ⟨h, hs, e⟩
  · simp only [readBit, e]
    simp only [reduceCtorEq, false_iff, not_and]
    omega
  · simp [readBit, e, h, hs]
  · simp [readBit, e, hs]

/-- A read that answers a bit takes it from the window ready for it and advances the cursor by one. -/
theorem readBit_some {cfg : Params} {epoch : Nat} {st st' : Stream} {b : Bool}
    (h : readBit cfg epoch st = some (b, st')) :
    ∃ w, readyWindow cfg epoch st = some w ∧
      b = bitAt (bufRead epoch w.bbs.buf (w.bbs.flat.toNat >>> 3)) (w.bbs.flat.toNat &&& 7) ∧
      st' = { w with bbs := { w.bbs with flat := w.bbs.flat + 1#32 } } := by
  unfold readBit at h
  cases e : readyWindow cfg epoch st with
  | none => simp [e] at h
  | some w =>
    simp only [e, Option.some.injEq, Prod.mk.injEq] at h
    exact ⟨w, rfl, h.1.symm, h.2.symm⟩

/-- A read only takes bytes from the front of SRC (R44). -/
theorem readBit_src {cfg : Params} {epoch : Nat} {st st' : Stream} {b : Bool}
    (h : readBit cfg epoch st = some (b, st')) : st'.src <:+ st.src := by
  obtain ⟨w, hw, -, rfl⟩ := readBit_some h
  rcases readyWindow_cases cfg epoch st with ⟨-, e⟩ | ⟨-, -, e⟩ | ⟨hf, -, e⟩
  · rw [hw] at e
    obtain rfl := Option.some.inj e
    exact List.suffix_refl _
  · simp [hw] at e
  · rw [hw] at e
    obtain rfl := Option.some.inj e
    rw [slideRefill_eq hf]
    exact List.drop_suffix _ _

/-! ### CODEC -/

@[simp] theorem Pixel.setChannel_alpha (p : Pixel) (c : Channel) (v : Byte) :
    (p.setChannel c v).a = p.a := by cases c <;> rfl

theorem Pixel.channel_setChannel (p : Pixel) (c c' : Channel) (v : Byte) :
    (p.setChannel c v).channel c' = if c = c' then v else p.channel c' := by
  cases c <;> cases c' <;> rfl

/-- What one channel of ENC can do (R132): nothing, meet the end of the stream, or embed a bit. -/
theorem embedChannel_cases (m : PayloadSource) (s : State) (N : Nat) (wk : PixelWork) (c : Channel) :
    ((wk.eos = true ∨ wk.k = N) ∧ embedChannel m s N wk c = wk) ∨
    (wk.eos = false ∧ wk.k ≠ N ∧ payloadBit m s wk.k wk.st = none ∧
      embedChannel m s N wk c = { wk with eos := true }) ∨
    (∃ b st', wk.eos = false ∧ wk.k ≠ N ∧ payloadBit m s wk.k wk.st = some (b, st') ∧
      embedChannel m s N wk c =
        { px := wk.px.setChannel c (embedBit (wk.px.channel c) b), k := wk.k + 1, st := st',
          eos := false }) := by
  by_cases h : wk.eos = true ∨ wk.k = N
  · exact .inl ⟨h, by simp [embedChannel, h]⟩
  · simp only [not_or, Bool.not_eq_true] at h
    cases e : payloadBit m s wk.k wk.st with
    | none => exact .inr (.inl ⟨h.1, h.2, rfl, by simp [embedChannel, h.1, h.2, e]⟩)
    | some r =>
      obtain ⟨b, st'⟩ := r
      exact .inr (.inr ⟨b, st', h.1, h.2, rfl, by simp [embedChannel, h.1, h.2, e]⟩)

/-- ENC never changes a pixel's alpha (R131). -/
theorem embedChannel_alpha (m : PayloadSource) (s : State) (N : Nat) (wk : PixelWork) (c : Channel) :
    (embedChannel m s N wk c).px.a = wk.px.a := by
  rcases embedChannel_cases m s N wk c with ⟨-, e⟩ | ⟨-, -, -, e⟩ | ⟨b, st', -, -, -, e⟩ <;> simp [e]

theorem embedPixel_alpha (m : PayloadSource) (s : State) (N : Nat) (px : Pixel) (k : Nat) (st : Stream) :
    (embedPixel m s N px k st).px.a = px.a := by
  simp [embedPixel, embedChannel_alpha]

/-- A session's raster is the raster at the start after its PutPixel calls (R132, R178). -/
theorem EncSession.put_putAll {e : EncSession} {r : Raster} (h : e.raster = r.putAll e.puts) (x y : Nat)
    (p : Pixel) : (e.put x y p).raster = r.putAll (e.put x y p).puts := by
  simp [EncSession.put, h, Raster.putAll_append]

/-- The raster after a scan is the raster at the start after the scan's PutPixel calls. -/
theorem encScan_putAll (m : PayloadSource) (s : State) (N : Nat) (ps : List (Nat × Nat)) {e : EncSession}
    {r : Raster} (h : e.raster = r.putAll e.puts) :
    (encScan m s N ps e).1.raster = r.putAll (encScan m s N ps e).1.puts := by
  induction ps generalizing e with
  | nil => exact h
  | cons p ps ih =>
    obtain ⟨x, y⟩ := p
    simp only [encScan]
    split
    · exact h
    · split
      · exact ih h
      · split
        · split
          · exact h
          · exact EncSession.put_putAll (e := { e with k := _, st := _ }) h x y _
        · exact ih (EncSession.put_putAll (e := { e with k := _, st := _ }) h x y _)

/-- A scan never goes back: the payload bit index only grows, and stays at most N (R31). -/
theorem extractBit_k (epoch N : Nat) (grp : Byte) (d : DecSession) (j : Nat) (h : d.k ≤ N) :
    d.k ≤ (extractBit epoch N grp d j).k ∧ (extractBit epoch N grp d j).k ≤ N := by
  by_cases e : d.k = N
  · simp [extractBit, e]
  · simp only [extractBit, e, if_false]
    omega

end Sys2Proof.Machine
end

