-- ==== Sys2Proof/Laws/Step.lean ====
section
/-! SUPPORT. What a step, a core turn and a host action can do, said once. -/

namespace Sys2Proof.Machine

/-- A core turn on a legal word is the command's meaning. -/
theorem coreTurn_of_ok {s : State} {i : Instr} (h : decode s.latch.cmd = .ok i) :
    coreTurn s = exec i s := by simp [coreTurn, h]

/-- A core turn on any other word is IllegalCommand. -/
theorem coreTurn_of_error {s : State} {e : DecodeError} (h : decode s.latch.cmd = .error e) :
    coreTurn s = execIllegal s := by simp [coreTurn, h]

/-- A step with a scheduled turn takes it. -/
@[simp] theorem step_of_cons {s : State} {t : Turn} {rest : List Turn} (h : s.turns = t :: rest) :
    step s = takeTurn t { s with turns := rest } := by simp [step, h]

/-- With no turn scheduled the core moves while BUSY = 1. -/
theorem step_of_busy {s : State} (h : s.turns = []) (hb : s.busy = true) : step s = coreTurn s := by
  simp [step, h, hb, takeTurn]

/-- With no turn scheduled the host moves while BUSY = 0. -/
theorem step_of_idle {s : State} (h : s.turns = []) (hb : s.busy = false) : step s = hostTurn s := by
  simp [step, h, hb, takeTurn]

/-- A register's own offset names it (R21). -/
@[simp] theorem regAt_regOffset (r : HostReg) : regAt (regOffset r) = some r := by
  cases r <;> decide

/-- An access by register name is always one aligned word in the window (R50). -/
@[simp] theorem busOffset_reg (s : State) (r : HostReg) :
    s.busOffset (s.cfg.regBase + regOffset r) 4 = .ok (regOffset r) := by
  cases r <;> simp [State.busOffset, regOffset, windowBytes]

/-- The three outcomes of a bus access's address (R50, R53). -/
theorem busOffset_cases (s : State) (addr size : Nat) :
    s.busOffset addr size = .error .outsideWindow ∨ s.busOffset addr size = .error .nonWordAccess ∨
    (∃ off, s.busOffset addr size = .ok off ∧ addr = s.cfg.regBase + off ∧ off < windowBytes ∧
      off % 4 = 0 ∧ size = 4) := by
  unfold State.busOffset
  split
  · exact .inl rfl
  · split
    · exact .inr (.inl rfl)
    · refine .inr (.inr ⟨_, rfl, ?_⟩)
      omega

/-- What a register write can do (R25, R51, R52, R177). -/
theorem writeReg_cases {s t : State} {v : Word} {r : Option HostReg} (h : s.writeReg v r = some t) :
    t = s ∨ (t = s.accept v ∧ s.busy = false ∧ s.resetHeld = false) ∨
    (t = { s with arg0 := v } ∧ s.resetHeld = false) ∨ (t = { s with arg1 := v } ∧ s.resetHeld = false) := by
  match r with
  | some .cmd =>
    simp only [State.writeReg] at h
    cases hr : s.resetHeld <;> cases hb : s.busy <;> simp_all
  | some .arg0 =>
    simp only [State.writeReg, Option.some.injEq] at h
    cases hr : s.resetHeld <;> simp_all
  | some .arg1 =>
    simp only [State.writeReg, Option.some.injEq] at h
    cases hr : s.resetHeld <;> simp_all
  | some .res0 | some .res1 | some .status | some .cfgBuf | some .cfgPmem | none =>
    exact .inl (Option.some.inj h).symm

/-- What a host action can do to the block, its PMEM and what it borrows, when the step goes on: the
host's own record aside, at most one of these. -/
theorem hostDo_cases {a : HostAction} {s t : State} (h : hostDo a s = .next t) :
    ∃ hst u, t = { u with host := hst } ∧
      (u = s ∨
       (∃ v, u = s.accept v ∧ s.busy = false ∧ s.resetHeld = false) ∨
       (∃ v, u = { s with arg0 := v } ∧ s.resetHeld = false) ∨
       (∃ v, u = { s with arg1 := v } ∧ s.resetHeld = false) ∨
       (∃ k v, u = { s with pmem := pmemWrite s.pmem k v } ∧ k < s.cfg.pmemBytes ∧ s.busy = false ∧
         s.resetHeld = false) ∨
       (∃ bytes, u = { s with src := bytes } ∧ s.busy = false) ∨
       (∃ r, u = { s with raster := r } ∧ s.busy = false ∧ Raster.wf r)) := by
  have same : ∀ t : State, t = { s with host := t.host } → ∃ hst u, t = { u with host := hst } ∧ (u = s ∨
       (∃ v, u = s.accept v ∧ s.busy = false ∧ s.resetHeld = false) ∨
       (∃ v, u = { s with arg0 := v } ∧ s.resetHeld = false) ∨
       (∃ v, u = { s with arg1 := v } ∧ s.resetHeld = false) ∨
       (∃ k v, u = { s with pmem := pmemWrite s.pmem k v } ∧ k < s.cfg.pmemBytes ∧ s.busy = false ∧
         s.resetHeld = false) ∨
       (∃ bytes, u = { s with src := bytes } ∧ s.busy = false) ∨
       (∃ r, u = { s with raster := r } ∧ s.busy = false ∧ Raster.wf r)) :=
    fun t e => ⟨t.host, s, e, .inl rfl⟩
  have write : ∀ addr size v, hostWrite addr size v s = .next t → ∃ hst u, t = { u with host := hst } ∧ (u = s ∨
       (∃ v, u = s.accept v ∧ s.busy = false ∧ s.resetHeld = false) ∨
       (∃ v, u = { s with arg0 := v } ∧ s.resetHeld = false) ∨
       (∃ v, u = { s with arg1 := v } ∧ s.resetHeld = false) ∨
       (∃ k v, u = { s with pmem := pmemWrite s.pmem k v } ∧ k < s.cfg.pmemBytes ∧ s.busy = false ∧
         s.resetHeld = false) ∨
       (∃ bytes, u = { s with src := bytes } ∧ s.busy = false) ∨
       (∃ r, u = { s with raster := r } ∧ s.busy = false ∧ Raster.wf r)) := by
    intro addr size v h
    unfold hostWrite at h
    split at h
    · simp at h
    · split at h
      · exact same t (by simpa using (Host.Outcome.next.inj h).symm ▸ rfl)
      · rename_i u hu
        obtain rfl := Host.Outcome.next.inj h
        refine ⟨u.hostNext.host, u, rfl, ?_⟩
        rcases writeReg_cases hu with e | ⟨e, hb⟩ | ⟨e, hb⟩ | ⟨e, hb⟩
        · exact .inl e
        · exact .inr (.inl ⟨v, e, hb⟩)
        · exact .inr (.inr (.inl ⟨v, e, hb⟩))
        · exact .inr (.inr (.inr (.inl ⟨v, e, hb⟩)))
  have read : ∀ addr size, hostRead addr size s = .next t → t = { s with host := t.host } := by
    intro addr size h
    unfold hostRead at h
    split at h
    · simp at h
    · obtain rfl := Host.Outcome.next.inj h
      rfl
  have jump : ∀ name, hostJump name s = .next t → t = { s with host := t.host } := by
    intro name h
    unfold hostJump at h
    split at h
    · obtain rfl := Host.Outcome.next.inj h
      rfl
    · simp at h
  match a with
  | .wr reg v => exact write _ _ _ h
  | .busWrite addr size v => exact write _ _ _ h
  | .rd reg => exact same t (read _ _ h)
  | .busRead addr size => exact same t (read _ _ h)
  | .pw k v =>
    simp only [hostDo, hostPmemWrite] at h
    split at h
    · exact same t (by obtain rfl := Host.Outcome.next.inj h; rfl)
    · split at h
      · exact same t (by obtain rfl := Host.Outcome.next.inj h; rfl)
      · rename_i hb hr
        simp only [not_or, Bool.not_eq_true, ge_iff_le, Nat.not_le] at hr
        obtain rfl := Host.Outcome.next.inj h
        exact ⟨_, { s with pmem := pmemWrite s.pmem k v }, rfl,
          .inr (.inr (.inr (.inr (.inl ⟨k, v, rfl, hr.2, by simpa using hb, hr.1⟩))))⟩
  | .pr k =>
    simp only [hostDo, hostPmemRead] at h
    split at h <;> exact same t (by obtain rfl := Host.Outcome.next.inj h; rfl)
  | .wait =>
    simp only [hostDo, hostWait] at h
    split at h <;> exact same t (by obtain rfl := Host.Outcome.next.inj h; rfl)
  | .label n => exact same t (by obtain rfl := Host.Outcome.next.inj h; rfl)
  | .bok n =>
    simp only [hostDo] at h
    split at h
    · exact same t (jump _ h)
    · exact same t (by obtain rfl := Host.Outcome.next.inj h; rfl)
  | .bnok n =>
    simp only [hostDo] at h
    split at h
    · exact same t (by obtain rfl := Host.Outcome.next.inj h; rfl)
    · exact same t (jump _ h)
  | .bindSource bytes =>
    simp only [hostDo, hostBindSource] at h
    split at h
    · simp at h
    · rename_i hb
      obtain rfl := Host.Outcome.next.inj h
      exact ⟨_, { s with src := bytes }, rfl,
        .inr (.inr (.inr (.inr (.inr (.inl ⟨bytes, rfl, by simpa using hb⟩)))))⟩
  | .bindRaster r =>
    simp only [hostDo, hostBindRaster] at h
    split at h
    · simp at h
    · split at h
      · rename_i hb hw
        obtain rfl := Host.Outcome.next.inj h
        exact ⟨_, { s with raster := r }, rfl,
          .inr (.inr (.inr (.inr (.inr (.inr ⟨r, rfl, by simpa using hb, hw⟩)))))⟩
      · simp at h

/-- An abandoned ENC with an oversized length has made no PutPixel call (R132, R136, R178). -/
theorem abandonedRaster_of_oversized_enc {s : State} {m : PayloadSource}
    (hd : decode s.latch.cmd = .ok (.enc m)) (hL : encLimit m s.cfg < s.latch.a0.toNat) :
    abandonedRaster s = s.raster := by
  simp [abandonedRaster, latchedPuts, hd, putsOf, State.operand0, hL]

/-- An abandoned command other than ENC makes no PutPixel call (R40, R178). -/
theorem abandonedRaster_of_not_enc {s : State} (hd : ∀ m, decode s.latch.cmd ≠ .ok (.enc m)) :
    abandonedRaster s = s.raster := by
  unfold abandonedRaster latchedPuts
  cases h : decode s.latch.cmd with
  | error e => simp
  | ok i => cases i <;> first | exact absurd h (hd _) | simp [putsOf]

end Sys2Proof.Machine
end

