-- ==== Sys2Proof/Tests/Slice0.lean ====
section
/-! SUPPORT. Tests: every command's word written out from 30_encoding.md, the checks of WellFormed.lean on
ill-formed terms, vectors of 95_test_vectors.md, and for every statement with hypotheses a state and
operands that meet them. -/

namespace Sys2Proof.Tests

open Sys2Proof.Machine

/-! ### Helpers -/

/-- A step's outcome is a next state that passes a check. -/
def nextAnd (o : Host.Outcome State Fault Refusal) (p : State → Bool) : Bool :=
  match o with
  | .next t => p t
  | .fault _ | .refused _ => false

theorem exists_next {o : Host.Outcome State Fault Refusal} {p : State → Bool} (h : nextAnd o p = true) :
    ∃ t, o = .next t ∧ p t = true := by
  cases o with
  | next t => exact ⟨t, rfl, h⟩
  | fault r => simp [nextAnd] at h
  | refused r => simp [nextAnd] at h

/-- A command in progress with given latched operands, from reset with BUF_BYTES = 2, PMEM_BYTES = 16. -/
def running (a0 a1 : Word) : State :=
  { State.reset with busy := true, latch := { cmd := 0, a0 := a0, a1 := a1, w := 0, h := 0 } }

/-- The same with slots 0 and 1 set. -/
def withSlots (s : State) (c0 c1 : Cursor) : State :=
  { s with slots := { s.slots with c0 := c0, c1 := c1 } }

/-- The same with a byte source. -/
def withSource (s : State) (src : List Byte) : State := { s with src := src }

/-- The start state of V-E4 after BINIT #7. -/
def window7 : State :=
  { running 0 0 with
    bbs := { buf := [(0, 0xA5), (1, 0x3C)], fill := 2, flat := 7 }, src := [0x0F, 0xF0] }

/-- The transparency raster of V-C. -/
def raster2 : Raster :=
  { width := 2, height := 2
    pixels := [⟨0x10, 0x20, 0x30, 0xFF⟩, ⟨0x11, 0x21, 0x31, 0x00⟩, ⟨0x12, 0x22, 0x32, 0x80⟩,
      ⟨0x13, 0x23, 0x33, 0x01⟩] }

/-- A codec command in progress on that raster, with A5 FF in PMEM[0..1]. -/
def codec (L : Word) : State :=
  { running L 0 with
    raster := raster2, pmem := [(0, 0xA5), (1, 0xFF)]
    latch := { cmd := 0, a0 := L, a1 := 0, w := 2, h := 2 } }

/-- An idle block whose host is at the start of a program. -/
def hosting (program : List HostAction) : State := State.reset.loadProgram program

/-! ### Decoding: words written from R61 and R65 (OPC 7:0, CA 9:8, CB 11:10, M 12, RSV 31:13) -/

theorem test_decode_addr : decode 0b0000000000000000000_0_00_00_00000001#32 = .ok .addr := by decide
theorem test_decode_mask : decode 0b0000000000000000000_0_00_00_00000010#32 = .ok .mask := by decide
theorem test_decode_cnew : decode 0b0000000000000000000_0_00_10_00010000#32 = .ok (.cnew 2) := by decide
theorem test_decode_cpos : decode 0b0000000000000000000_0_00_01_00010001#32 = .ok (.cpos 1) := by decide
theorem test_decode_cadv : decode 0b0000000000000000000_0_00_11_00010010#32 = .ok (.cadv 3) := by decide
theorem test_decode_crem : decode 0b0000000000000000000_0_00_01_00010011#32 = .ok (.crem 1) := by decide
theorem test_decode_cshift : decode 0b0000000000000000000_0_00_10_00010100#32 = .ok (.cshift 2) := by decide
theorem test_decode_ccmp : decode 0b0000000000000000000_0_11_00_00010101#32 = .ok (.ccmp 0 3) := by decide
theorem test_decode_csub : decode 0b0000000000000000000_0_00_11_00010110#32 = .ok (.csub 3 0) := by decide
theorem test_decode_cget : decode 0b0000000000000000000_0_00_01_00010111#32 = .ok (.cget 1) := by decide
theorem test_decode_binit : decode 0b0000000000000000000_0_00_00_00100000#32 = .ok .binit := by decide
theorem test_decode_brdbit : decode 0b0000000000000000000_0_00_00_00100001#32 = .ok .brdbit := by decide
theorem test_decode_brdbits : decode 0b0000000000000000000_0_00_00_00100010#32 = .ok .brdbits := by decide
theorem test_decode_beos : decode 0b0000000000000000000_0_00_00_00100011#32 = .ok .beos := by decide
theorem test_decode_bget : decode 0b0000000000000000000_0_00_00_00100100#32 = .ok .bget := by decide
theorem test_decode_enc_pmem : decode 0b0000000000000000000_0_00_00_00110000#32 = .ok (.enc .pmem) := by decide
theorem test_decode_enc_bbs : decode 0b0000000000000000000_1_00_00_00110000#32 = .ok (.enc .bbs) := by decide
theorem test_decode_dec : decode 0b0000000000000000000_0_00_00_00110001#32 = .ok .dec := by decide

/-- Legal words of V-X, and a row of the opcode table by its bits. -/
theorem test_decode_vx_legal :
    decode 0x00000915#32 = .ok (.ccmp 1 2) ∧ decode 0x00000312#32 = .ok (.cadv 3) ∧
    decodeTableWord 32 0x1030 = some (.enc .bbs) ∧ decodeTableWord 32 0x2030 = none := by decide

/-! ### WellFormed: each check refuses an ill-formed term -/

/-- The illegal words of V-X: opcode, CA, CB, M and RSV in turn. -/
theorem test_wordLegal_refuses :
    [0x00000000, 0x00000003, 0x000000FF, 0x00000101, 0x00000411, 0x00001031, 0x00002030, 0x80000001,
      0x00001111].all (fun w => !wordLegal w) = true := by decide

/-- The legal words of V-X. -/
theorem test_wordLegal_accepts :
    [0x00000C15, 0x00001030, 0x00000210, 0x00000915, 0x00000316, 0x00000312, 0x00000117].all wordLegal =
      true := by decide

theorem test_commandLine_missing_first : CommandLine.wellFormed { instr := .mask } = false := by decide

theorem test_commandLine_missing_second :
    CommandLine.wellFormed { instr := .addr, v0 := some 9 } = false := by decide

theorem test_commandLine_extra : CommandLine.wellFormed { instr := .bget, v0 := some 0 } = false := by decide

theorem test_commandLine_negative_first :
    CommandLine.wellFormed { instr := .mask, v0 := some (-1) } = false := by decide

theorem test_commandLine_wide_second :
    CommandLine.wellFormed { instr := .addr, v0 := some 0, v1 := some 4294967296 } = false := by decide

theorem test_commandLine_negative_delta :
    CommandLine.wellFormed { instr := .cshift 0, v0 := some (-8) } = true := by decide

/-- V-S13's word and operand, from the line `CSHIFT c0, #-8` (R71). -/
theorem test_expand_cshift :
    Line.expand (.command { instr := .cshift 0, v0 := some (-8) }) =
      [.wr .arg0 0xFFFFFFF8, .wr .cmd 0x00000014, .wait] := by decide

/-- `CRESET c1, #16` is `CNEW c1, #16, #0` (R71). -/
theorem test_expand_creset :
    Line.expand (.creset 1 16) =
      [.wr .arg0 16, .wr .arg1 0, .wr .cmd 0x00000110, .wait] := by decide

/-! ### Vectors of 95_test_vectors.md, one step each -/

/-- V-A8. -/
theorem test_addr_largest :
    nextAnd (exec .addr (running 0xFFFFFFFF 0x20000000))
      (fun t => t.code == .ok && t.res0 == 0x1FFFFFFF && t.res1 == 7) = true := by decide

/-- V-A9. -/
theorem test_addr_one_byte_short :
    nextAnd (exec .addr (running 0xFFFFFFFF 0x1FFFFFFF)) (fun t => t.code == .outOfRange && t.res0 == 0) =
      true := by decide

/-- V-A14. -/
theorem test_mask_eight :
    nextAnd (exec .mask (running 8 0)) (fun t => t.code == .ok && t.res0 == 0xFF) = true := by decide

/-- V-A15. -/
theorem test_mask_nine :
    nextAnd (exec .mask (running 9 0)) (fun t => t.code == .assertViolation && t.res0 == 0) = true := by decide

/-- V-S7. -/
theorem test_cnew_slot1 :
    nextAnd (exec (.cnew 1) (running 13 12)) (fun t => t.code == .ok && t.slot 1 == ⟨12, 13⟩) = true := by decide

/-- V-S5. -/
theorem test_cnew_start_past_capacity :
    nextAnd (exec (.cnew 0) (running 16 17)) (fun t => t.code == .invalidRange && t.slot 0 == ⟨0, 0⟩) =
      true := by decide

/-- V-S8. -/
theorem test_cpos :
    nextAnd (exec (.cpos 1) (withSlots (running 0 0) ⟨0, 0⟩ ⟨12, 13⟩))
      (fun t => t.code == .ok && t.res0 == 1 && t.res1 == 4) = true := by decide

/-- V-S9: the address is the one before advancing. -/
theorem test_cadv :
    nextAnd (exec (.cadv 1) (withSlots (running 0 0) ⟨0, 0⟩ ⟨12, 13⟩))
      (fun t => t.code == .ok && t.res0 == 1 && t.res1 == 4 && t.slot 1 == ⟨13, 13⟩) = true := by decide

/-- V-S11. -/
theorem test_cadv_exhausted :
    nextAnd (exec (.cadv 1) (withSlots (running 0 0) ⟨0, 0⟩ ⟨13, 13⟩))
      (fun t => t.code == .exhausted && t.slot 1 == ⟨13, 13⟩) = true := by decide

/-- The example of R98. -/
theorem test_crem :
    nextAnd (exec (.crem 0) (withSlots (running 0 0) ⟨5, 16⟩ ⟨0, 0⟩))
      (fun t => t.res0 == 11 && t.res1 == 0) = true := by decide

/-- V-S13. -/
theorem test_cshift_back :
    nextAnd (exec (.cshift 0) (withSlots (running 0xFFFFFFF8 0) ⟨16, 16⟩ ⟨0, 0⟩))
      (fun t => t.code == .ok && t.slot 0 == ⟨8, 16⟩) = true := by decide

/-- V-S15. -/
theorem test_cshift_below_zero :
    nextAnd (exec (.cshift 0) (withSlots (running 0xFFFFFFF7 0) ⟨8, 16⟩ ⟨0, 0⟩))
      (fun t => t.code == .invalidRange && t.slot 0 == ⟨8, 16⟩) = true := by decide

/-- V-S31. -/
theorem test_ccmp :
    nextAnd (exec (.ccmp 0 1) (withSlots (running 0 0) ⟨3, 16⟩ ⟨5, 8⟩))
      (fun t => t.res0 == 0xFFFFFFFF && t.res1 == 0) = true := by decide

/-- V-S25, with slots 0 and 1. -/
theorem test_csub_borrow :
    nextAnd (exec (.csub 0 1) (withSlots (running 0 0) ⟨0, 8⟩ ⟨0xFFFFFFFF, 0xFFFFFFFF⟩))
      (fun t => t.res0 == 1 && t.res1 == 1) = true := by decide

/-- The example of R107, with slot 1. -/
theorem test_cget :
    nextAnd (exec (.cget 1) (withSlots (running 0 0) ⟨0, 0⟩ ⟨4, 16⟩))
      (fun t => t.res0 == 4 && t.res1 == 16) = true := by decide

/-- V-E4 step 0. -/
theorem test_binit :
    nextAnd (exec .binit (withSource (running 7 0) [0xA5, 0x3C, 0x0F, 0xF0]))
      (fun t => t.bbs == ⟨[(0, 0xA5), (1, 0x3C)], 2, 7⟩ && t.src == [0x0F, 0xF0]) = true := by decide

/-- V-E4 step 1: bit 7 of A5, and no refill yet. -/
theorem test_brdbit_in_window :
    nextAnd (exec .brdbit window7) (fun t => t.res0 == 1 && t.bbs.flat == 8 && t.src == [0x0F, 0xF0]) =
      true := by decide

/-- V-B6 step 4: the refill keeps the bit offset. -/
theorem test_brdbit_refill :
    nextAnd (exec .brdbit { window7 with bbs := ⟨[(0, 0x5A)], 1, 12⟩, src := [0xF0] })
      (fun t => t.res0 == 0 && t.bbs == ⟨[(0, 0xF0)], 1, 5⟩ && t.src == []) = true := by decide

/-- V-B1. -/
theorem test_brdbits :
    nextAnd (exec .brdbits (withSource (running 12 0) [0xAB, 0xCD]))
      (fun t => t.pmem == [(0, 0xAB), (1, 0xC0)] && t.res0 == 12 && t.code == .ok && t.bbs.flat == 12) =
      true := by decide

/-- V-B4: 15 + 2 > 16. -/
theorem test_brdbits_does_not_fit :
    nextAnd (exec .brdbits (running 9 15)) (fun t => t.code == .invalidArgument && t.pmem == []) = true := by
  decide

/-- The example of R121. -/
theorem test_beos :
    nextAnd (exec .beos (withSource (running 0 0) [0x00])) (fun t => t.res0 == 0 && t.src == [0x00]) =
      true := by decide

/-- The example of R124 before its BRDBIT. -/
theorem test_bget : nextAnd (exec .bget window7) (fun t => t.res0 == 7 && t.res1 == 2) = true := by decide

/-- V-C1. -/
theorem test_enc_pmem :
    nextAnd (exec (.enc .pmem) (codec 1))
      (fun t => t.code == .ok && t.res0 == 8 && t.raster.pixels ==
        [⟨0x11, 0x20, 0x31, 0xFF⟩, ⟨0x11, 0x21, 0x31, 0x00⟩, ⟨0x12, 0x22, 0x33, 0x80⟩,
          ⟨0x12, 0x23, 0x33, 0x01⟩]) = true := by decide

/-- V-C6: the stream ends in the middle of pixel (1, 0). -/
theorem test_enc_bbs_ends_mid_pixel :
    nextAnd (exec (.enc .bbs) (withSource { codec 2 with
        raster := ⟨2, 2, [⟨0, 0, 0, 0xFF⟩, ⟨0, 0, 0, 0xFF⟩, ⟨0, 0, 0, 0xFF⟩, ⟨0, 0, 0, 0xFF⟩]⟩ } [0xFF]))
      (fun t => t.code == .endOfSource && t.res0 == 8 && t.raster.pixels ==
        [⟨1, 1, 1, 0xFF⟩, ⟨1, 1, 1, 0xFF⟩, ⟨1, 1, 0, 0xFF⟩, ⟨0, 0, 0, 0xFF⟩]) = true := by decide

/-- V-C4, on V-C1's raster. -/
theorem test_dec_too_few_slots :
    nextAnd (exec .dec { codec 2 with
        raster := ⟨2, 2, [⟨0x11, 0x20, 0x31, 0xFF⟩, ⟨0x11, 0x21, 0x31, 0x00⟩, ⟨0x12, 0x22, 0x33, 0x80⟩,
          ⟨0x12, 0x23, 0x33, 0x01⟩]⟩ })
      (fun t => t.code == .endOfSource && t.res0 == 9 && t.pmem == [(0, 0xA5), (1, 0x80)]) = true := by decide

/-- R22: STATUS while CADV's Exhausted is followed by a running command. -/
theorem test_statusWord : statusWord true .exhausted = 0x80000003#32 := by decide

/-- The host-placed word runs at the next step from reset. -/
theorem test_placed_word_runs :
    nextAnd (step (State.reset.withFetchWord 32 0x00000217)) (fun t => t.code == .ok && !t.busy) = true := by
  decide

/-- An illegal word of V-X from reset. -/
theorem test_placed_illegal_word :
    nextAnd (step (State.reset.withFetchWord 32 0x00000411))
      (fun t => t.code == .illegalCommand && t.cmd == 0x00000411 && !t.busy) = true := by decide

/-! ### Witnesses: states and operands that meet the statements' hypotheses -/

theorem witness_illegal_word :
    wordLegal 0x00000000 = false ∧ wordLegal 0x00001111 = false ∧ State.reset.busy = false ∧
    State.reset.resetHeld = false := by decide

theorem witness_addr_in_range :
    (running 0xFFFFFFFF 0x20000000).latch.a0.toNat / 8 < (running 0xFFFFFFFF 0x20000000).latch.a1.toNat := by
  decide

theorem witness_addr_out_of_range :
    (running 0xFFFFFFFF 0x1FFFFFFF).latch.a1.toNat ≤ (running 0xFFFFFFFF 0x1FFFFFFF).latch.a0.toNat / 8 := by
  decide

theorem witness_mask :
    (running 8 0).latch.a0.toNat ≤ 8 ∧ 8 < (running 9 0).latch.a0.toNat := by decide

theorem witness_addresses_addr : ∃ t, exec .addr (running 9 2) = .next t ∧ (t.code == .ok) = true :=
  exists_next (by decide)

theorem witness_addresses_cpos :
    ∃ t, exec (.cpos 0) (withSlots (running 0 0) ⟨9, 16⟩ ⟨0, 0⟩) = .next t ∧ (t.code == .ok) = true :=
  exists_next (by decide)

theorem witness_addresses_cadv :
    ∃ t, exec (.cadv 0) (withSlots (running 0 0) ⟨15, 16⟩ ⟨0, 0⟩) = .next t ∧ (t.code == .ok) = true :=
  exists_next (by decide)

theorem witness_addresses_readBit :
    (readyWindow window7.cfg 0 window7.stream).isSome = true ∧
    (readyWindow window7.cfg 0 { window7.stream with bbs := ⟨[], 0, 0⟩ }).isSome = true := by decide

theorem witness_agu_pure :
    (running 9 2).latch.a0 = (withSlots (running 9 2) ⟨1, 2⟩ ⟨0, 0⟩).latch.a0 ∧
    (running 9 2).latch.a1 = (withSlots (running 9 2) ⟨1, 2⟩ ⟨0, 0⟩).latch.a1 ∧
    running 9 2 ≠ withSlots (running 9 2) ⟨1, 2⟩ ⟨0, 0⟩ := by decide

theorem witness_cnew :
    (running 16 16).latch.a1.toNat ≤ (running 16 16).latch.a0.toNat ∧
    (running 16 17).latch.a0.toNat < (running 16 17).latch.a1.toNat := by decide

theorem witness_cpos_cadv :
    ((withSlots (running 0 0) ⟨15, 16⟩ ⟨0, 0⟩).slot 0).flat.toNat <
      ((withSlots (running 0 0) ⟨15, 16⟩ ⟨0, 0⟩).slot 0).cap.toNat ∧
    ((withSlots (running 0 0) ⟨16, 16⟩ ⟨0, 0⟩).slot 0).cap.toNat ≤
      ((withSlots (running 0 0) ⟨16, 16⟩ ⟨0, 0⟩).slot 0).flat.toNat ∧
    ((withSlots (running 0 0) ⟨16, 16⟩ ⟨0, 0⟩).slot 0).flat =
      ((withSlots (running 0 0) ⟨16, 16⟩ ⟨0, 0⟩).slot 0).cap := by decide

theorem witness_crem :
    ((withSlots (running 0 0) ⟨16, 16⟩ ⟨0, 0⟩).slot 0).flat.toNat ≤
      ((withSlots (running 0 0) ⟨16, 16⟩ ⟨0, 0⟩).slot 0).cap.toNat := by decide

/-- Deltas that land on 0 and on cap, and one step outside each. -/
theorem witness_cshift :
    let at8 := fun d : Word => (((withSlots (running d 0) ⟨8, 16⟩ ⟨0, 0⟩).slot 0).flat.toNat : Int) + d.toInt
    at8 0xFFFFFFF8 = 0 ∧ at8 8 = 16 ∧ at8 0xFFFFFFF7 = -1 ∧ at8 9 = 17 := by decide

/-- The three orders and the two capacity cases of CCMP, and CSUB's borrow. -/
theorem witness_ccmp_csub :
    let s := withSlots (running 0 0) ⟨3, 16⟩ ⟨5, 8⟩
    (s.slot 0).flat.toNat < (s.slot 1).flat.toNat ∧ (s.slot 0).cap.toNat ≠ (s.slot 1).cap.toNat ∧
    (s.slot 2).flat.toNat = (s.slot 3).flat.toNat ∧ (s.slot 2).cap.toNat = (s.slot 3).cap.toNat := by decide

/-- A relation that meets CcmpIsATotalOrder's hypothesis for the order CCMP gives. -/
theorem witness_ccmp_total_order :
    ∃ le : SlotNo → SlotNo → Prop, ∀ a b, le a b ↔
      cursorOrder (State.reset.slot a) (State.reset.slot b) = 0#32 ∨
      cursorOrder (State.reset.slot a) (State.reset.slot b) = 0xFFFFFFFF#32 :=
  ⟨_, fun _ _ => Iff.rfl⟩

theorem witness_slot_writer :
    ∃ t, exec (.cadv 0) (withSlots (running 0 0) ⟨15, 16⟩ ⟨0, 0⟩) = .next t ∧
      (t.code == .ok && t.slot 0 != ⟨15, 16⟩) = true := exists_next (by decide)

/-- RepeatedCadv: with flat 15 of 16, j = 0 is inside and j = 1 is past the end. -/
theorem witness_repeated_cadv :
    let s := withSlots (running 0 0) ⟨15, 16⟩ ⟨0, 0⟩
    (s.slot 0).flat.toNat ≤ (s.slot 0).cap.toNat ∧ (s.slot 0).flat.toNat + 0 < (s.slot 0).cap.toNat ∧
    (s.slot 0).cap.toNat ≤ (s.slot 0).flat.toNat + 1 := by decide

theorem witness_independent_csq :
    isCursorCommand (.cget 0) = true ∧ ∃ t, exec (.cget 0) window7 = .next t ∧ (t.code == .ok) = true :=
  ⟨rfl, exists_next (by decide)⟩

theorem witness_independent_bbs :
    isBbsCommand .brdbit = true ∧ ∃ t, exec .brdbit window7 = .next t ∧ (t.code == .ok) = true :=
  ⟨rfl, exists_next (by decide)⟩

/-- BINIT at the last legal start and one past it. -/
theorem witness_binit :
    (running 16 0).latch.a0.toNat ≤ (running 16 0).cfg.bufBytes * 8 ∧
    (running 17 0).cfg.bufBytes * 8 < (running 17 0).latch.a0.toNat := by decide

/-- BRDBIT's three situations: the last bit of the window, its end with SRC empty, its end with a byte. -/
theorem witness_brdbit :
    window7.cfg.Legal ∧ (15#32).toNat < window7.bbs.fill * 8 ∧ window7.bbs.fill * 8 ≤ (16#32).toNat ∧
    (withSource window7 []).src = [] ∧ window7.src = 0x0F#8 :: [0xF0#8] := by decide

theorem witness_readBit :
    window7.cfg.Legal ∧ window7.stream.bbs.Bounded window7.cfg ∧
    (readBit window7.cfg 0 window7.stream).isSome = true ∧
    (readBit window7.cfg 0 (running 0 0).stream).isSome = false ∧
    (running 0 0).stream.bbs.Bounded window7.cfg := by decide

/-- StreamLaw: the last legal start, and a j inside and one past the end of S. -/
theorem witness_stream_law :
    let s := withSource (running 16 0) [0xA5, 0x3C, 0x0F]
    s.cfg.Legal ∧ s.latch.a0.toNat ≤ s.cfg.bufBytes * 8 ∧ s.latch.a0.toNat + 7 < 8 * s.src.length ∧
    ¬ s.latch.a0.toNat + 8 < 8 * s.src.length := by decide

/-- BRDBITS: an output that just fits, and one that does not. -/
theorem witness_brdbits :
    let s := withSource (running 8 15) [0x01]
    s.cfg.Legal ∧ s.bbs.Bounded s.cfg ∧ s.latch.a1.toNat + (s.latch.a0.toNat + 7) / 8 ≤ s.cfg.pmemBytes ∧
    (running 9 15).cfg.pmemBytes < (running 9 15).latch.a1.toNat + ((running 9 15).latch.a0.toNat + 7) / 8 ∧
    s.stream.unread s.epoch = [false, false, false, false, false, false, false, true] := by decide

/-- BRDBITS with fewer unread bits than n: 8 bits left of 12 asked for, so EndOfSource with RES0 = 8. -/
theorem witness_brdbits_end_of_source :
    let s := withSource (running 12 14) [0xAB]
    s.cfg.Legal ∧ s.bbs.Bounded s.cfg ∧ s.latch.a1.toNat + (s.latch.a0.toNat + 7) / 8 ≤ s.cfg.pmemBytes ∧
    (s.stream.unread s.epoch).length = 8 ∧ min s.latch.a0.toNat (s.stream.unread s.epoch).length ≠ s.latch.a0.toNat ∧
    nextAnd (exec .brdbits s) (fun t => t.code == .endOfSource && t.res0 == 8 &&
      t.pmem == [(14, 0xAB), (15, 0x00)]) = true := by decide

theorem witness_beos : (running 0 0).src = [] ∧ window7.src ≠ [] := by decide

theorem witness_bget : window7.cfg.Legal ∧ window7.bbs.Bounded window7.cfg ∧ window7.bbs.fill = 2 := by decide

theorem witness_end_of_source :
    (running 0 0).cfg.Legal ∧
    ∃ t, exec .brdbit (running 0 0) = .next t ∧ (t.code == .endOfSource) = true :=
  ⟨by decide, exists_next (by decide)⟩

/-- A command that consumes SRC, one that does not, and a read inside the window. -/
theorem witness_source :
    (∃ t, exec .binit window7 = .next t ∧ (t.src == []) = true) ∧
    (readsStream .beos = false ∧ ∃ t, exec .beos window7 = .next t ∧ (t.src == window7.src) = true) ∧
    window7.bbs.flat.toNat < window7.bbs.fill * 8 :=
  ⟨exists_next (by decide), ⟨rfl, exists_next (by decide)⟩, by decide⟩

/-- One byte over each limit. -/
theorem witness_codec_length :
    (running 17 0).cfg.pmemBytes < (running 17 0).latch.a0.toNat ∧
    2 ^ 29 - 1 < (running 0x20000000 0).latch.a0.toNat := by decide

/-- ENC from PMEM: L = 1 has room, L = 2 has not (9 slots). -/
theorem witness_enc_pmem :
    (codec 1).cfg.Legal ∧ (codec 1).bbs.Bounded (codec 1).cfg ∧ (codec 1).RasterBorrowed ∧
    (codec 1).latch.a0.toNat ≤ (codec 1).cfg.pmemBytes ∧
    min (8 * 1) (min (slotOrder (codec 1).raster).length (payloadBits .pmem (codec 1)).length) = 8 ∧
    (codec 2).RasterBorrowed ∧
    min (8 * 2) (min (slotOrder (codec 2).raster).length (payloadBits .pmem (codec 2)).length) = 9 := by decide

/-- ENC from the BBS: the stream of one byte ends before L = 2 is reached. -/
theorem witness_enc_bbs :
    let s := withSource (codec 2) [0xFF]
    s.cfg.Legal ∧ s.bbs.Bounded s.cfg ∧ s.RasterBorrowed ∧ s.latch.a0.toNat ≤ 2 ^ 29 - 1 ∧
    min (8 * 2) (min (slotOrder s.raster).length (payloadBits .bbs s).length) = 8 := by decide

theorem witness_dec :
    (codec 2).cfg.Legal ∧ (codec 2).RasterBorrowed ∧ (codec 2).latch.a0.toNat ≤ (codec 2).cfg.pmemBytes ∧
    min (8 * 2) (slotOrder (codec 2).raster).length = 9 := by decide

/-- Round trip and capacity: ceil(8/3) = 3 opaque pixels are just enough for L = 1. -/
theorem witness_round_trip :
    (codec 1).cfg.Legal ∧ (codec 1).RasterBorrowed ∧ (codec 1).latch.a0.toNat ≤ (codec 1).cfg.pmemBytes ∧
    (8 * (codec 1).latch.a0.toNat + 2) / 3 ≤ opaqueCount (codec 1).raster := by decide

theorem witness_codec_frame :
    (∃ t, exec (.enc .pmem) (codec 1) = .next t ∧ (t.code == .ok) = true) ∧
    (∃ t, exec (.enc .bbs) (codec 1) = .next t ∧ (t.code == .endOfSource) = true) ∧
    (∃ t, exec .dec (codec 1) = .next t ∧ (t.code == .ok) = true) :=
  ⟨exists_next (by decide), exists_next (by decide), exists_next (by decide)⟩

theorem witness_alpha :
    (codec 1).raster.wf ∧ ∃ t, exec (.enc .pmem) (codec 1) = .next t ∧ (t.raster != raster2) = true :=
  ⟨by decide, exists_next (by decide)⟩

/-- The last group offsets of one byte: whole, and cut by one and by two bits. -/
theorem witness_group_and_trim : 5 < 8 * 1 ∧ 6 < 8 * 1 ∧ 7 < 8 * 1 := by decide

/-- DEC of one byte on a raster whose last pixel differs after slot 7's pixel: a 2 x 2 opaque raster. -/
theorem witness_dec_later_pixels :
    let p : Pixel := ⟨0, 0, 0, 0xFF⟩
    let s : State := { codec 1 with raster := ⟨2, 2, [p, p, p, p]⟩ }
    let r : Raster := ⟨2, 2, [p, p, p, ⟨1, 1, 1, 1⟩]⟩
    s.RasterBorrowed ∧ r.wf ∧ 0 < s.latch.a0.toNat ∧
    (slotOrder s.raster)[8 * s.latch.a0.toNat - 1]? = some (1, 0, .green) ∧
    (∀ x < 2, ∀ y < 2, x * 2 + y ≤ 1 * 2 + 0 → r.getPixel x y = s.raster.getPixel x y) ∧
    nextAnd (exec .dec s) (fun t => t.code == .ok) = true := by decide

theorem witness_codes :
    (∃ t, exec .mask (running 9 0) = .next t ∧ (t.code == .assertViolation) = true) ∧
    wordLegal (running 0 0).latch.cmd = false := ⟨exists_next (by decide), by decide⟩

/-- A failing command without progress, and an operand check of one with it. -/
theorem witness_failing :
    (∃ t, exec (.cadv 0) (running 0 0) = .next t ∧ (t.code == .exhausted) = true) ∧
    reportsProgress (.cadv 0) = false ∧
    (∃ t, exec .dec (running 17 0) = .next t ∧ (t.code == .invalidArgument) = true) :=
  ⟨exists_next (by decide), rfl, exists_next (by decide)⟩

theorem witness_completes : needsRaster (.enc .bbs) = true ∧ (codec 1).RasterBorrowed := by decide

theorem witness_command_frame :
    ∃ t, exec .brdbits (withSource (running 12 0) [0xAB, 0xCD]) = .next t ∧ (t.pmem != []) = true :=
  exists_next (by decide)

theorem witness_latched :
    ∃ t, exec .addr (running 9 2) = .next t ∧ (t.res0 == 1 && t.arg0 == 0) = true := exists_next (by decide)

theorem witness_cmd_write :
    State.reset.busy = false ∧ State.reset.resetHeld = false ∧ (running 0 0).busy = true ∧
    (running 0 0).resetHeld = false := by decide

/-- The first and last reserved offsets, and an access of each undefined kind. -/
theorem witness_bus :
    (0x20 ≤ 0x20 ∧ 0x20 % 4 = 0) ∧ (0xFFC ≤ 0xFFC ∧ 0xFFC % 4 = 0) ∧
    (State.reset.cfg.regBase ≤ 4095 ∧ 4095 < State.reset.cfg.regBase + 4096 ∧
      (4095 - State.reset.cfg.regBase) % 4 ≠ 0) := by decide

/-- The last PMEM byte and the first address beyond. -/
theorem witness_pmem_port :
    State.reset.busy = false ∧ State.reset.resetHeld = false ∧ 15 < State.reset.cfg.pmemBytes ∧
    State.reset.cfg.pmemBytes ≤ 16 ∧ (running 0 0).busy = true := by decide

theorem witness_borrowed : State.reset.busy = false ∧ (running 0 0).busy = true ∧ raster2.wf := by decide

/-- A label at position 1 that no earlier position holds, with both kinds of status seen. -/
theorem witness_branches :
    let s := hosting [.wait, .label 7, .bok 7]
    s.host.program[1]? = some (.label 7) ∧ (∀ j < 1, s.host.program[j]? ≠ some (.label 7)) ∧
    s.host.waited = .ok ∧ Code.exhausted ≠ .ok := by decide

theorem witness_host_turn :
    (∃ t, hostTurn (hosting [.wr .arg0 5]) = .next t ∧ (t.arg0 == 5) = true) ∧
    (∃ t, hostTurn { hosting [.wr .arg0 5] with busy := true } = .next t ∧ (t.arg0 == 5 && t.busy) = true) :=
  ⟨exists_next (by decide), exists_next (by decide)⟩

theorem witness_command_line :
    let c : CommandLine := { instr := .addr, v0 := some 9, v1 := some 2 }
    let s := hosting ([.wait] ++ expandCommand c ++ [.rd .res0])
    c.wellFormed = true ∧ s.busy = false ∧ s.resetHeld = false ∧ s.turns = [] ∧
    { s with host := { s.host with pc := 1 } }.host.pc = [HostAction.wait].length := by decide

/-- A block that can be reset idle, during an ENC and during a BBS command. -/
theorem witness_reset_input :
    State.reset.resetHeld = false ∧ State.reset.busy = false ∧ (codec 1).busy = true ∧
    decode (State.accept { codec 1 with arg0 := 1 } 0x30).latch.cmd = .ok (.enc .pmem) ∧
    (State.accept { codec 1 with arg0 := 1 } 0x30).latch.a0.toNat ≤
      encLimit .pmem (codec 1).cfg ∧
    nextAnd (coreTurn (State.accept { window7 with arg0 := 7 } 0x20)) (fun t => t.src == []) = true := by decide

/-- The reset of a block whose running ENC has a length one over its limit. -/
theorem witness_reset_oversized_enc :
    let s := State.accept { codec 1 with arg0 := 17 } 0x30
    s.resetHeld = false ∧ s.busy = true ∧ decode s.latch.cmd = .ok (.enc .pmem) ∧
    encLimit .pmem s.cfg < s.latch.a0.toNat := by decide

theorem witness_held_reset :
    { State.reset with resetHeld := true }.resetHeld = true ∧
    { State.reset with resetHeld := true }.busy = false := by decide

/-- A state for each kind of turn, and a latched word that decodes and one that does not. -/
theorem witness_turns :
    (running 0 0).busy = true ∧ (running 0 0).turns = [] ∧ decode (running 0 0).latch.cmd = .error .unknownOpcode ∧
    decode (State.reset.withFetchWord 32 1).latch.cmd = .ok .addr ∧
    (State.reset.withFetchWord 32 1).turns.head? = some .core ∧
    { State.reset with turns := [.assertReset] }.turns.head? = some .assertReset := by decide

theorem witness_invariant_step :
    Inv (State.reset.withFetchWord 32 0x22) ∧
    ∃ t, step (State.reset.withFetchWord 32 0x22) = .next t ∧ (!t.busy) = true :=
  ⟨by decide, exists_next (by decide)⟩

theorem witness_legal_parameters :
    Params.Legal { bufBytes := 2 ^ 28, pmemBytes := 2 ^ 29 - 1, regBase := 0 } ∧
    Params.Legal { bufBytes := 1, pmemBytes := 1, regBase := 0 } := by decide

end Sys2Proof.Tests
end

section
/-! Scheduling (00_scope.md section 3, R7; 10_state.md section 2, R25): who moves in a step, read off
the schedule's head and tail, and what the core's turn does at each value of BUSY. -/

namespace Sys2Proof.Machine

/-- A busy core's turn is the core turn. -/
@[simp] theorem takeTurn_core_of_busy {s : State} (hb : s.busy = true) :
    takeTurn .core s = coreTurn s := by simp [takeTurn, hb]

/-- An idle core's turn changes nothing (R7). -/
@[simp] theorem takeTurn_core_of_idle {s : State} (hb : s.busy = false) :
    takeTurn .core s = .next s := by simp [takeTurn, hb]

/-- Taking the tail of an empty schedule leaves the state as it is. -/
theorem State.with_tail_of_unscheduled {s : State} (h : s.turns = []) :
    { s with turns := s.turns.tail } = s := by
  rw [h, List.tail_nil, ← h]

/-- A scheduled turn runs with itself taken off the schedule. -/
theorem step_of_head? {s : State} {t : Turn} (h : s.turns.head? = some t) :
    step s = takeTurn t { s with turns := s.turns.tail } :=
  step_of_cons (List.eq_cons_of_mem_head? h)

/-- While BUSY = 1 the core runs its command, when it is scheduled and when nobody is. -/
theorem step_of_busy_core_next {s : State} (hb : s.busy = true)
    (h : s.turns = [] ∨ s.turns.head? = some .core) :
    step s = coreTurn { s with turns := s.turns.tail } := by
  rcases h with hnil | hcore
  · rw [State.with_tail_of_unscheduled hnil, step_of_busy hnil hb]
  · exact (step_of_head? hcore).trans (takeTurn_core_of_busy hb)

/-- The host moves when it is scheduled, and when nobody is while BUSY = 0. -/
theorem step_of_host_next {s : State}
    (h : s.turns.head? = some .host ∨ (s.turns = [] ∧ s.busy = false)) :
    step s = hostTurn { s with turns := s.turns.tail } := by
  rcases h with hhost | ⟨hnil, hb⟩
  · exact step_of_head? hhost
  · rw [State.with_tail_of_unscheduled hnil, step_of_idle hnil hb]

/-- Settles O57: each clause is one scheduling lemma, with the core turn read off the decoder's answer. -/
theorem stepRunsTheScheduledTurn : Obligations.StepRunsTheScheduledTurn := by
  intro s
  refine ⟨?legal, ?illegal, ?idleCore, step_of_host_next, step_of_head?, step_of_head?⟩
  case legal =>
    intro i hb hcore hi
    exact (step_of_busy_core_next hb hcore).trans (coreTurn_of_ok hi)
  case illegal =>
    intro e hb hcore he
    exact (step_of_busy_core_next hb hcore).trans (coreTurn_of_error he)
  case idleCore =>
    intro hb hcore
    exact (step_of_head? hcore).trans (takeTurn_core_of_idle hb)

end Sys2Proof.Machine
end

section
/-! Outcomes (10_state.md R24, R25): what each command can do when it completes, said once. A command's
frame, its codes and the invariant are read off `Effect`. -/

namespace Sys2Proof.Machine

/-- What a command can have done to the state `s` when it completes with a code, before STATUS is
written: the constructors' last index is that state. -/
inductive Effect : Instr → State → Code → State → Prop
  /-- A failing exit that writes nothing (R24). Code 8 is not among its codes (R162). -/
  | unchanged {i : Instr} {s : State} {c : Code} (hfail : c ≠ .ok) (hblock : c ≠ .unsupportedFormat) :
      Effect i s c s
  /-- A command that answers in RES0 and RES1. -/
  | results {i : Instr} {s : State} (v₀ v₁ : Word) : Effect i s .ok (s.setRes v₀ v₁)
  /-- A command that writes a slot, within its capacity if the slot was (R27). -/
  | slotWritten {i : Instr} {s : State} (v₀ v₁ : Word) (k : SlotNo) (a : Cursor)
      (hcap : (s.slot k).flat.toNat ≤ (s.slot k).cap.toNat → a.flat.toNat ≤ a.cap.toNat) :
      Effect i s .ok ((s.setRes v₀ v₁).setSlot k a)
  /-- BINIT: the window holds the first bytes of SRC and the cursor stands at `start` (R110). -/
  | windowFilled {s : State} (hstart : s.operand0 ≤ s.cfg.bufBytes * 8) :
      Effect .binit s .ok (s.setStream
        { bbs :=
            { buf := Memory.storeAll s.bbs.buf 0 (s.src.take s.cfg.bufBytes)
              fill := (s.src.take s.cfg.bufBytes).length
              flat := BitVec.ofNat 32 s.operand0 }
          src := s.src.drop s.cfg.bufBytes })
  /-- BRDBIT with a bit to read (R114). -/
  | bitRead {s : State} {b : Bool} {st : Stream} (hread : readBit s.cfg s.epoch s.stream = some (b, st)) :
      Effect .brdbit s .ok ((s.setStream st).setRes0 (bitWord b))
  /-- BRDBITS with an output that fits: its run of reads (R116). -/
  | bitsRead {s : State} {r : ReadBitsResult}
      (hfit : s.operand1 + (s.operand0 + 7) >>> 3 ≤ s.cfg.pmemBytes)
      (hr : readBitsLoop s.cfg s.epoch s.operand1 s.operand0 0
        (pmemClear s.pmem s.operand1 ((s.operand0 + 7) >>> 3)) s.stream = r) :
      Effect .brdbits s (if r.all then .ok else .endOfSource)
        { (s.setStream r.st).setRes0 (BitVec.ofNat 32 r.count) with pmem := r.pmem }
  /-- ENC of a length within its limit: its scan (R132). -/
  | embedded {m : PayloadSource} {s : State} (hlimit : s.operand0 ≤ encLimit m s.cfg)
      (hraster : s.RasterBorrowed) :
      Effect (.enc m) s (encRun m s).2
        { (s.setStream (encRun m s).1.st).setRes0 (BitVec.ofNat 32 (encRun m s).1.k) with
          raster := (encRun m s).1.raster }
  /-- DEC of a length within PMEM: its scan (R137). -/
  | extracted {s : State} (hlimit : s.operand0 ≤ s.cfg.pmemBytes) (hraster : s.RasterBorrowed) :
      Effect .dec s (decRun s).2
        { s.setRes0 (BitVec.ofNat 32 (decRun s).1.k) with pmem := (decRun s).1.pmem }

/-- An outcome that is the completion of a command with one of its effects. -/
def Completes (i : Instr) (s : State) (o : Host.Outcome State Fault Refusal) : Prop :=
  ∃ c u, o = raise c u ∧ Effect i s c u

/-- ENC and DEC in a state whose raster is not the one sampled at acceptance (R43). -/
def RefusesRaster (i : Instr) (s : State) (o : Host.Outcome State Fault Refusal) : Prop :=
  needsRaster i = true ∧ ¬ s.RasterBorrowed ∧ o = .refused .rasterChangedWhileBusy

section
variable {i : Instr} {s : State}

theorem Effect.completes {c : Code} {u : State} (h : Effect i s c u) : Completes i s (raise c u) :=
  ⟨c, u, rfl, h⟩

theorem completes_results (v₀ v₁ : Word) : Completes i s (finish (s.setRes v₀ v₁)) :=
  (Effect.results v₀ v₁).completes

theorem completes_results0 (v : Word) : Completes i s (finish (s.setRes0 v)) :=
  completes_results v s.res1

end

/-! ### AGU and CSQ -/

theorem execAddr_completes (s : State) : Completes .addr s (execAddr s) := by
  simp only [execAddr]
  split
  · exact (Effect.unchanged (by decide) (by decide)).completes
  · exact completes_results ..

theorem execMask_completes (s : State) : Completes .mask s (execMask s) := by
  simp only [execMask]
  split
  · exact (Effect.unchanged (by decide) (by decide)).completes
  · exact completes_results0 _

theorem execCnew_completes (ca : SlotNo) (s : State) : Completes (.cnew ca) s (execCnew ca s) := by
  simp only [execCnew]
  split
  case isTrue => exact (Effect.unchanged (by decide) (by decide)).completes
  case isFalse hstart =>
    exact (Effect.slotWritten s.res0 s.res1 ca _ fun _ => Nat.not_lt.1 hstart).completes

theorem execCpos_completes (ca : SlotNo) (s : State) : Completes (.cpos ca) s (execCpos ca s) := by
  simp only [execCpos]
  split
  · exact (Effect.unchanged (by decide) (by decide)).completes
  · exact completes_results ..

/-- A cursor that is not at its capacity stays within it when it advances by one bit (R95). -/
theorem advance_le_cap {flat cap : Word} (hne : flat ≠ cap) (hle : flat.toNat ≤ cap.toNat) :
    (flat + 1#32).toNat ≤ cap.toNat := by
  bv_omega

theorem execCadv_completes (ca : SlotNo) (s : State) : Completes (.cadv ca) s (execCadv ca s) := by
  simp only [execCadv]
  split
  case isTrue => exact (Effect.unchanged (by decide) (by decide)).completes
  case isFalse hne => exact (Effect.slotWritten _ _ ca _ (advance_le_cap hne)).completes

/-- A target in `[0, cap]` is its 32-bit value (R100). -/
theorem toNat_ofInt_le_cap {t : Int} {cap : Word} (h : ¬ (t < 0 ∨ t > cap.toNat)) :
    (BitVec.ofInt 32 t).toNat ≤ cap.toNat := by
  have := cap.isLt
  rw [BitVec.toNat_ofInt, Int.emod_eq_of_lt] <;> omega

theorem execCshift_completes (ca : SlotNo) (s : State) : Completes (.cshift ca) s (execCshift ca s) := by
  simp only [execCshift]
  split
  case isTrue => exact (Effect.unchanged (by decide) (by decide)).completes
  case isFalse ht =>
    exact (Effect.slotWritten s.res0 s.res1 ca _ fun _ => toNat_ofInt_le_cap ht).completes

/-! ### BBS -/

/-- BINIT's guarded SrcRead is SrcRead: from an empty SRC it takes nothing (R45). -/
theorem srcRead_guarded (k : Nat) (src : List Byte) :
    (if srcEmpty src then ([], src) else srcRead k src) = srcRead k src := by
  cases src <;> simp [srcEmpty, srcRead]

theorem execBinit_completes (s : State) : Completes .binit s (execBinit s) := by
  simp only [execBinit, srcRead_guarded]
  split
  case isTrue => exact (Effect.unchanged (by decide) (by decide)).completes
  case isFalse hstart => exact (Effect.windowFilled (Nat.not_lt.1 hstart)).completes

theorem execBrdbit_completes (s : State) : Completes .brdbit s (execBrdbit s) := by
  unfold execBrdbit
  split
  next => exact (Effect.unchanged (by decide) (by decide)).completes
  next hread => exact (Effect.bitRead hread).completes

theorem execBrdbits_completes (s : State) : Completes .brdbits s (execBrdbits s) := by
  simp only [execBrdbits]
  split
  case isTrue => exact (Effect.unchanged (by decide) (by decide)).completes
  case isFalse hfit =>
    have he := (Effect.bitsRead (Nat.not_lt.1 hfit) rfl).completes
    split
    next hall => rwa [if_pos hall] at he
    next hall => rwa [if_neg hall] at he

/-! ### CODEC -/

theorem execEnc_outcome (m : PayloadSource) (s : State) :
    RefusesRaster (.enc m) s (execEnc m s) ∨ Completes (.enc m) s (execEnc m s) := by
  unfold execEnc
  split
  case isTrue => exact .inr (Effect.unchanged (by decide) (by decide)).completes
  case isFalse hlimit =>
    split
    case isTrue hraster => exact .inl ⟨rfl, hraster, rfl⟩
    case isFalse hraster =>
      exact .inr (Effect.embedded (Nat.not_lt.1 hlimit) (not_not.1 hraster)).completes

theorem execDec_outcome (s : State) :
    RefusesRaster .dec s (execDec s) ∨ Completes .dec s (execDec s) := by
  unfold execDec
  split
  case isTrue => exact .inr (Effect.unchanged (by decide) (by decide)).completes
  case isFalse hlimit =>
    split
    case isTrue hraster => exact .inl ⟨rfl, hraster, rfl⟩
    case isFalse hraster =>
      exact .inr (Effect.extracted (Nat.not_lt.1 hlimit) (not_not.1 hraster)).completes

/-! ### Every command -/

/-- A command completes with one of its effects, or is refused for a changed raster (R43). -/
theorem exec_outcome (i : Instr) (s : State) :
    RefusesRaster i s (exec i s) ∨ Completes i s (exec i s) :=
  match i with
  | .addr => .inr (execAddr_completes s)
  | .mask => .inr (execMask_completes s)
  | .cnew ca => .inr (execCnew_completes ca s)
  | .cpos ca => .inr (execCpos_completes ca s)
  | .cadv ca => .inr (execCadv_completes ca s)
  | .crem _ => .inr (completes_results0 _)
  | .cshift ca => .inr (execCshift_completes ca s)
  | .ccmp _ _ => .inr (completes_results ..)
  | .csub _ _ => .inr (completes_results ..)
  | .cget _ => .inr (completes_results ..)
  | .binit => .inr (execBinit_completes s)
  | .brdbit => .inr (execBrdbit_completes s)
  | .brdbits => .inr (execBrdbits_completes s)
  | .beos => .inr (completes_results0 _)
  | .bget => .inr (completes_results ..)
  | .enc m => execEnc_outcome m s
  | .dec => execDec_outcome s

/-- A command that answers a next state has completed with one of its effects. -/
theorem exec_effect {i : Instr} {s t : State} (h : exec i s = .next t) :
    ∃ c u, Effect i s c u ∧ t = u.complete c := by
  rcases exec_outcome i s with ⟨-, -, hrefused⟩ | ⟨c, u, hraise, he⟩
  · simp [hrefused] at h
  · exact ⟨c, u, he, ((raise_eq_next c u t).1 (hraise ▸ h)).symm⟩

/-- No command reaches beyond the results, the slots, the BBS, PMEM, the raster, SRC and STATUS, and the
code is the one recorded (R20, R165). -/
theorem exec_frame {i : Instr} {s t : State} (h : exec i s = .next t) :
    t = { s with res0 := t.res0, res1 := t.res1, slots := t.slots, bbs := t.bbs, pmem := t.pmem,
                 raster := t.raster, src := t.src, code := t.code, busy := false,
                 events := s.events.record t.code } := by
  obtain ⟨c, u, he, rfl⟩ := exec_effect h
  cases he <;> rfl

/-- ENC's scan ends with OK or EndOfSource (R132, R134). -/
theorem encScan_code (m : PayloadSource) (s : State) (N : Nat) (ps : List (Nat × Nat)) (e : EncSession) :
    (encScan m s N ps e).2 = .ok ∨ (encScan m s N ps e).2 = .endOfSource := by
  induction ps generalizing e with
  | nil => simp only [encScan]; split <;> simp
  | cons p ps ih =>
    obtain ⟨x, y⟩ := p
    simp only [encScan]
    split
    · exact .inl rfl
    · split
      · exact ih e
      · split
        · exact .inr rfl
        · exact ih _

/-- DEC's scan ends with OK or EndOfSource (R137). -/
theorem decScan_code (epoch N : Nat) (r : Raster) (ps : List (Nat × Nat)) (d : DecSession) :
    (decScan epoch N r ps d).2 = .ok ∨ (decScan epoch N r ps d).2 = .endOfSource := by
  induction ps generalizing d with
  | nil => simp only [decScan]; split <;> simp
  | cons p ps ih =>
    obtain ⟨x, y⟩ := p
    simp only [decScan]
    split
    · exact .inl rfl
    · split
      · exact ih d
      · exact ih _

/-- A command ends with a write-free failure, with OK, or with EndOfSource if it reports its progress
(R24). -/
theorem Effect.code_cases {i : Instr} {s u : State} {c : Code} (h : Effect i s c u) :
    (u = s ∧ c ≠ .ok ∧ c ≠ .unsupportedFormat) ∨ c = .ok ∨
    (c = .endOfSource ∧ reportsProgress i = true) := by
  cases h with
  | unchanged hfail hblock => exact .inl ⟨rfl, hfail, hblock⟩
  | results | slotWritten | windowFilled | bitRead => exact .inr (.inl rfl)
  | bitsRead => exact .inr (by split <;> simp [reportsProgress])
  | embedded => exact .inr ((encScan_code ..).imp id fun h => ⟨h, rfl⟩)
  | extracted => exact .inr ((decScan_code ..).imp id fun h => ⟨h, rfl⟩)

/-- Settles O40: a failing exit is a write-free one, or EndOfSource of a command that reports progress. -/
theorem failingCommandsChangeOnlyStatus : Obligations.FailingCommandsChangeOnlyStatus := by
  intro i s t h hfail hquiet
  obtain ⟨c, u, he, rfl⟩ := exec_effect h
  rw [State.complete_code] at hfail hquiet
  rcases he.code_cases with ⟨rfl, -⟩ | hok | ⟨hend, hprogress⟩
  · rfl
  · exact absurd hok hfail
  · simp [hend, hprogress] at hquiet

/-- Settles O42: the common frame of all effects, and the two that write PMEM and the one that writes the
raster among them. -/
theorem commandFrame : Obligations.CommandFrame := by
  intro i s t h
  have hf := exec_frame h
  obtain ⟨c, u, he, ht⟩ := exec_effect h
  have hpmem : i ≠ .brdbits → i ≠ .dec → t.pmem = s.pmem := by subst ht; cases he <;> simp
  have hraster : (∀ m, i ≠ .enc m) → t.raster = s.raster := by subst ht; cases he <;> simp
  refine ⟨?_, ?_, ?_, ?_, ?_, ?_, ?_, ?_, ?_, hpmem, hraster⟩ <;> rw [hf]

end Sys2Proof.Machine
end

section
/-! The invariant (Safety.lean): each of its parts is kept by the operation that writes that part of the
state, and so by every turn. -/

namespace Sys2Proof.Machine

/-! ### The stream -/

/-- A window filled from SRC is in range, and every byte below its FILL is written (R110, R113). -/
theorem Bbs.bounded_fill {b : Bbs} {cfg : Params} (hwf : Memory.wf b.buf)
    (hbelow : Memory.below b.buf cfg.bufBytes) {flat : Word} (hflat : flat.toNat ≤ cfg.bufBytes * 8)
    (src : List Byte) :
    Bbs.Bounded
      { buf := Memory.storeAll b.buf 0 (src.take cfg.bufBytes)
        fill := (src.take cfg.bufBytes).length, flat := flat } cfg := by
  have hfill : (src.take cfg.bufBytes).length ≤ cfg.bufBytes := List.length_take_le ..
  refine ⟨hfill, hflat, fun i hi => ?_, Memory.wf_storeAll _ hwf _,
    Memory.below_storeAll _ hbelow (by omega)⟩
  dsimp only at hi ⊢
  rw [Memory.load?_storeAll, if_pos ⟨Nat.zero_le i, by omega⟩]
  simpa using hi

/-- The window a read works in is in range, and its cursor has a bit to read (R112, R115). -/
theorem readyWindow_bounded {cfg : Params} {epoch : Nat} {st w : Stream} (hcfg : cfg.Legal)
    (hst : st.bbs.Bounded cfg) (hw : readyWindow cfg epoch st = some w) :
    w.bbs.Bounded cfg ∧ w.bbs.flat.toNat < cfg.bufBytes * 8 := by
  obtain ⟨hfill, hflat, hwritten, hwf, hbelow⟩ := hst
  obtain ⟨hbuf, -⟩ := hcfg
  rcases readyWindow_cases cfg epoch st with ⟨hlt, e⟩ | ⟨-, -, e⟩ | ⟨hge, -, e⟩
  · obtain rfl := Option.some.inj (hw.symm.trans e)
    exact ⟨⟨hfill, hflat, hwritten, hwf, hbelow⟩, by omega⟩
  · simp [hw] at e
  · obtain rfl := Option.some.inj (hw.symm.trans e)
    have hoff : (BitVec.ofNat 32 (st.bbs.flat.toNat % 8)).toNat < cfg.bufBytes * 8 := by
      rw [BitVec.toNat_ofNat]
      omega
    rw [slideRefill_eq hge, ← List.length_take]
    exact ⟨Bbs.bounded_fill hwf hbelow hoff.le _, hoff⟩

/-- A bit read keeps the BBS state in range (R29, R112): the cursor does not wrap at a legal BUF_BYTES. -/
theorem readBit_bounded {cfg : Params} {epoch : Nat} {st st' : Stream} {b : Bool} (hcfg : cfg.Legal)
    (hst : st.bbs.Bounded cfg) (h : readBit cfg epoch st = some (b, st')) : st'.bbs.Bounded cfg := by
  obtain ⟨w, hw, -, rfl⟩ := readBit_some h
  obtain ⟨⟨hfill, -, hwritten, hwf, hbelow⟩, hlt⟩ := readyWindow_bounded hcfg hst hw
  obtain ⟨-, hbuf, -⟩ := hcfg
  have hnext : (w.bbs.flat + 1#32).toNat ≤ cfg.bufBytes * 8 := by bv_omega
  exact ⟨hfill, hnext, hwritten, hwf, hbelow⟩

/-- What every bit read keeps, BRDBITS's run of reads keeps (R116). -/
theorem readBitsLoop_stream {P : Stream → Prop} {cfg : Params} {epoch : Nat}
    (hread : ∀ st b st', P st → readBit cfg epoch st = some (b, st') → P st') (dst left i : Nat)
    (m : Memory) {st : Stream} (hst : P st) : P (readBitsLoop cfg epoch dst left i m st).st := by
  induction left generalizing i m st with
  | zero => exact hst
  | succ left ih =>
    unfold readBitsLoop
    split
    next => exact hst
    next hb => exact ih _ _ (hread _ _ _ hst hb)

section
variable {P : Stream → Prop} {m : PayloadSource} {s : State}
  (hread : ∀ st b st', P st → readBit s.cfg s.epoch st = some (b, st') → P st')
include hread

/-- What every bit read keeps, PayloadBit keeps from either source (R130). -/
theorem payloadBit_stream {k : Nat} {st st' : Stream} {b : Bool} (hst : P st)
    (h : payloadBit m s k st = some (b, st')) : P st' := by
  cases m with
  | pmem =>
    simp only [payloadBit, Option.some.injEq, Prod.mk.injEq] at h
    exact h.2 ▸ hst
  | bbs => exact hread _ _ _ hst h

theorem embedChannel_stream (N : Nat) {wk : PixelWork} (c : Channel) (hwk : P wk.st) :
    P (embedChannel m s N wk c).st := by
  rcases embedChannel_cases m s N wk c with ⟨-, e⟩ | ⟨-, -, -, e⟩ | ⟨b, st', -, -, hb, e⟩
  · rwa [e]
  · rwa [e]
  · rw [e]
    exact payloadBit_stream hread hwk hb

theorem embedPixel_stream (N : Nat) (px : Pixel) (k : Nat) {st : Stream} (hst : P st) :
    P (embedPixel m s N px k st).st :=
  embedChannel_stream hread N .blue
    (embedChannel_stream hread N .green (embedChannel_stream hread N .red hst))

/-- What every bit read keeps, ENC's scan keeps (R132). -/
theorem encScan_stream (N : Nat) (ps : List (Nat × Nat)) {e : EncSession} (he : P e.st) :
    P (encScan m s N ps e).1.st := by
  induction ps generalizing e with
  | nil => exact he
  | cons p ps ih =>
    obtain ⟨x, y⟩ := p
    have hpx := embedPixel_stream (m := m) hread N (e.raster.getPixel x y) e.k he
    simp only [encScan]
    split
    · exact he
    · split
      · exact ih he
      · split
        · split <;> exact hpx
        · exact ih hpx

end

/-! ### PMEM -/

/-- A memory in canonical form within its first `n` addresses. -/
abbrev Memory.Within (m : Memory) (n : Nat) : Prop := Memory.wf m ∧ Memory.below m n

theorem Memory.within_store {m : Memory} {n a : Nat} (h : Memory.Within m n) (ha : a < n) (v : Byte) :
    Memory.Within (Memory.store m a v) n :=
  ⟨Memory.wf_store h.1 a v, Memory.below_store h.2 ha v⟩

theorem within_pmemClear {m : Memory} {base n k : Nat} (h : Memory.Within m k) (hb : base + n ≤ k) :
    Memory.Within (pmemClear m base n) k :=
  ⟨wf_pmemClear h.1 base n, below_pmemClear h.2 hb⟩

/-- BRDBITS writes within PMEM when the byte of every bit it can read lies in PMEM (R116). -/
theorem readBitsLoop_within {cfg : Params} {epoch dst n left i : Nat} {m : Memory} (st : Stream)
    (hdst : ∀ j < i + left, dst + j >>> 3 < n) (hm : Memory.Within m n) :
    Memory.Within (readBitsLoop cfg epoch dst left i m st).pmem n := by
  induction left generalizing i m st with
  | zero => exact hm
  | succ left ih =>
    unfold readBitsLoop
    split
    next => exact hm
    next => exact ih _ (fun j hj => hdst j (by omega)) (Memory.within_store hm (hdst i (by omega)) _)

/-- Every bit of an output of `n` bits falls in one of its `(n + 7) >>> 3` bytes (R116). -/
theorem outputByte_lt {dst n size j : Nat} (hfit : dst + (n + 7) >>> 3 ≤ size) (hj : j < n) :
    dst + j >>> 3 < size := by
  simp only [Nat.shiftRight_eq_div_pow] at hfit ⊢
  omega

/-- A DEC session on its way through an output of `L` bytes: at most all of its bits are delivered, and
PMEM is within its `n` bytes (R31, R33). -/
abbrev DecSession.Within (d : DecSession) (L n : Nat) : Prop := d.k ≤ 8 * L ∧ Memory.Within d.pmem n

section
variable {epoch L n : Nat} (hL : L ≤ n)
include hL

theorem extractBit_within (grp : Byte) {d : DecSession} (j : Nat) (hd : d.Within L n) :
    (extractBit epoch (8 * L) grp d j).Within L n := by
  refine ⟨(extractBit_k epoch _ grp d j hd.1).2, ?_⟩
  unfold extractBit
  split
  case isTrue => exact hd.2
  case isFalse hk =>
    obtain ⟨hle, hm⟩ := hd
    have hbyte : d.k >>> 3 < n := by
      rw [Nat.shiftRight_eq_div_pow]
      omega
    exact Memory.within_store hm hbyte _

theorem extractPixel_within (px : Pixel) {d : DecSession} (hd : d.Within L n) :
    (extractPixel epoch (8 * L) px d).Within L n :=
  extractBit_within hL _ 2 (extractBit_within hL _ 1 (extractBit_within hL _ 0 hd))

/-- DEC's scan of an output that fits writes within PMEM (R137). -/
theorem decScan_within (r : Raster) (ps : List (Nat × Nat)) {d : DecSession} (hd : d.Within L n) :
    (decScan epoch (8 * L) r ps d).1.Within L n := by
  induction ps generalizing d with
  | nil => exact hd
  | cons p ps ih =>
    obtain ⟨x, y⟩ := p
    simp only [decScan]
    split
    · exact hd
    · split
      · exact ih hd
      · exact ih (extractPixel_within hL _ hd)

end

/-! ### The raster -/

/-- ENC's scan leaves a raster of the same dimensions and pixel count (R40). -/
theorem encRun_raster_wf (m : PayloadSource) {s : State} (h : s.raster.wf) :
    (encRun m s).1.raster.wf := by
  rw [encRun, encScan_putAll m s _ _ (r := s.raster) rfl]
  exact Raster.wf_putAll h _

/-! ### Effects -/

section
variable {i : Instr} {s u : State} {c : Code}

theorem Effect.cfg_eq (he : Effect i s c u) : u.cfg = s.cfg := by
  cases he <;> rfl

theorem Effect.events_eq (he : Effect i s c u) : u.events = s.events := by
  cases he <;> rfl

theorem Effect.slotsBounded (he : Effect i s c u) (h : s.SlotsBounded) : u.SlotsBounded := by
  cases he with
  | slotWritten v₀ v₁ k a hcap =>
    intro j
    rw [State.slot_setSlot, Slots.get_set]
    split
    · exact hcap (h k)
    · exact h j
  | unchanged | results | windowFilled | bitRead | bitsRead | embedded | extracted => exact h

theorem Effect.bbsBounded (he : Effect i s c u) (hcfg : s.cfg.Legal) (h : s.bbs.Bounded s.cfg) :
    u.bbs.Bounded u.cfg := by
  have hread : ∀ st b st', st.bbs.Bounded s.cfg → readBit s.cfg s.epoch st = some (b, st') →
      st'.bbs.Bounded s.cfg := fun _ _ _ => readBit_bounded hcfg
  cases he with
  | windowFilled hstart =>
    obtain ⟨-, -, -, hwf, hbelow⟩ := h
    exact Bbs.bounded_fill hwf hbelow ((Nat.mod_le ..).trans hstart) s.src
  | bitRead hb => exact hread _ _ _ h hb
  | bitsRead _ hr => exact hr ▸ readBitsLoop_stream (P := fun st => st.bbs.Bounded s.cfg) hread _ _ _ _ h
  | embedded => exact encScan_stream (P := fun st => st.bbs.Bounded s.cfg) hread _ _ h
  | unchanged | results | slotWritten | extracted => exact h

theorem Effect.pmemBounded (he : Effect i s c u) (h : s.PmemBounded) : u.PmemBounded := by
  cases he with
  | bitsRead hfit hr =>
    exact hr ▸ readBitsLoop_within _ (fun j hj => outputByte_lt hfit (by omega)) (within_pmemClear h hfit)
  | extracted hlimit =>
    have hstart : DecSession.Within ⟨0, pmemClear s.pmem 0 s.operand0⟩ s.operand0 s.cfg.pmemBytes :=
      ⟨Nat.zero_le _, within_pmemClear h (by omega)⟩
    exact (decScan_within hlimit s.raster _ hstart).2
  | unchanged | results | slotWritten | windowFilled | bitRead | embedded => exact h

theorem Effect.raster_wf (he : Effect i s c u) (h : s.raster.wf) : u.raster.wf := by
  cases he with
  | embedded => exact encRun_raster_wf _ h
  | unchanged | results | slotWritten | windowFilled | bitRead | bitsRead | extracted => exact h

theorem Effect.code_produced (he : Effect i s c u) : c ≠ .unsupportedFormat := by
  rcases he.code_cases with ⟨-, -, hblock⟩ | rfl | ⟨rfl, -⟩
  · exact hblock
  · decide
  · decide

end

/-! ### Turns -/

/-- What a step may do to the invariant, the parameters and the fault events (R10, R11, R165). -/
abbrev Keeps (s t : State) : Prop :=
  Inv t ∧ t.cfg = s.cfg ∧
  (s.events.assertViolation = true → t.events.assertViolation = true) ∧
  (s.events.illegalCommand = true → t.events.illegalCommand = true)

/-- Recording a code clears no fault event (R165; log 10). -/
theorem FaultEvents.record_mono (e : FaultEvents) (c : Code) :
    (e.assertViolation = true → (e.record c).assertViolation = true) ∧
    (e.illegalCommand = true → (e.record c).illegalCommand = true) := by
  cases c <;> simp [FaultEvents.record]

/-- The completion of a command keeps the invariant. -/
theorem exec_keeps {i : Instr} {s t : State} (hs : Inv s) (h : exec i s = .next t) : Keeps s t := by
  obtain ⟨c, u, he, rfl⟩ := exec_effect h
  obtain ⟨hlegal, hslots, hbbs, hpmem, ⟨hraster, -⟩, -, -⟩ := hs
  have hinv : Inv (u.complete c) :=
    ⟨he.cfg_eq ▸ hlegal, he.slotsBounded hslots, he.bbsBounded hlegal hbbs, he.pmemBounded hpmem,
      ⟨he.raster_wf hraster, nofun⟩, fun _ => rfl, he.code_produced⟩
  have hevents : (u.complete c).events = s.events.record c := congrArg (·.record c) he.events_eq
  exact ⟨hinv, he.cfg_eq, hevents ▸ FaultEvents.record_mono ..⟩

/-- An illegal word's completion writes STATUS only, so it keeps the invariant (R67). -/
theorem execIllegal_keeps {s t : State} (hs : Inv s) (h : execIllegal s = .next t) : Keeps s t := by
  obtain rfl := (raise_eq_next ..).1 h
  obtain ⟨hlegal, hslots, hbbs, hpmem, ⟨hraster, -⟩, -, -⟩ := hs
  exact ⟨⟨hlegal, hslots, hbbs, hpmem, ⟨hraster, nofun⟩, fun _ => rfl, nofun⟩, rfl,
    FaultEvents.record_mono ..⟩

theorem coreTurn_keeps {s t : State} (hs : Inv s) (h : coreTurn s = .next t) : Keeps s t := by
  cases hd : decode s.latch.cmd with
  | ok i => exact exec_keeps hs (coreTurn_of_ok hd ▸ h)
  | error e => exact execIllegal_keeps hs (coreTurn_of_error hd ▸ h)

/-- A host turn that goes on performs an action, or nothing once the program has ended (R70, R188). -/
theorem hostTurn_next {s t : State} (h : hostTurn s = .next t) :
    t = s ∨ ∃ a, hostDo a s = .next t := by
  unfold hostTurn at h
  split at h
  next a _ => exact .inr ⟨a, h⟩
  next => exact .inl (Host.Outcome.next.inj h).symm

/-- A host action keeps the invariant: it writes PMEM within range, binds an array, and a command it
starts samples the raster with reset released (R25, R35, R39). -/
theorem hostDo_keeps {a : HostAction} {s t : State} (hs : Inv s) (h : hostDo a s = .next t) :
    Keeps s t := by
  have ⟨hlegal, hslots, hbbs, hpmem, ⟨hraster, hsampled⟩, hidle, hcode⟩ := hs
  obtain ⟨hst, u, rfl, rfl | ⟨w, rfl, -, hrel⟩ | ⟨v, rfl, -⟩ | ⟨v, rfl, -⟩ | ⟨k, v, rfl, hk, -, -⟩ |
    ⟨bytes, rfl, -⟩ | ⟨r, rfl, hb, hr⟩⟩ := hostDo_cases h
  · exact ⟨hs, rfl, id, id⟩
  · have hheld : (s.accept w).ResetIdle := fun hheld => absurd hheld (by simp [hrel])
    exact ⟨⟨hlegal, hslots, hbbs, hpmem, ⟨hraster, fun _ => ⟨rfl, rfl⟩⟩, hheld, hcode⟩, rfl, id, id⟩
  · exact ⟨hs, rfl, id, id⟩
  · exact ⟨hs, rfl, id, id⟩
  · exact ⟨⟨hlegal, hslots, hbbs, Memory.within_store hpmem hk v, ⟨hraster, hsampled⟩, hidle, hcode⟩,
      rfl, id, id⟩
  · exact ⟨hs, rfl, id, id⟩
  · have hbusy : s.busy = true → r.width = s.latch.w ∧ r.height = s.latch.h := fun h => by simp [hb] at h
    exact ⟨⟨hlegal, hslots, hbbs, hpmem, ⟨hr, hbusy⟩, hidle, hcode⟩, rfl, id, id⟩

theorem hostTurn_keeps {s t : State} (hs : Inv s) (h : hostTurn s = .next t) : Keeps s t := by
  rcases hostTurn_next h with rfl | ⟨a, ha⟩
  · exact ⟨hs, rfl, id, id⟩
  · exact hostDo_keeps hs ha

theorem slot_resetWith (cfg : Params) (c : SlotNo) : (State.resetWith cfg).slot c = ⟨0, 0⟩ := by
  match c with
  | 0 | 1 | 2 | 3 => rfl

/-- The state right after reset meets the invariant (R176). -/
theorem inv_resetWith {cfg : Params} (h : cfg.Legal) : Inv (State.resetWith cfg) := by
  have hslots : (State.resetWith cfg).SlotsBounded := fun c => by rw [slot_resetWith]
  have hbbs : (State.resetWith cfg).bbs.Bounded cfg :=
    ⟨Nat.zero_le _, Nat.zero_le _, nofun, .nil, nofun⟩
  exact ⟨h, hslots, hbbs, ⟨.nil, nofun⟩, ⟨rfl, nofun⟩, nofun, nofun⟩

/-- The PutPixel calls an abandoned command has made leave an array (R178). -/
theorem abandonedRaster_wf {s : State} (h : s.raster.wf) : (abandonedRaster s).wf :=
  Raster.wf_putAll h _

theorem assertReset_keeps {s : State} (hs : Inv s) : Keeps s (assertReset s) := by
  unfold assertReset
  split
  case isTrue => exact ⟨hs, rfl, id, id⟩
  case isFalse =>
    obtain ⟨hlegal, -, -, -, ⟨hraster, -⟩, -, -⟩ := hs
    obtain ⟨-, hslots, hbbs, hpmem, -, -, hcode⟩ := inv_resetWith hlegal
    have hleft : Raster.wf (if s.busy then abandonedRaster s else s.raster) := by
      split
      · exact abandonedRaster_wf hraster
      · exact hraster
    exact ⟨⟨hlegal, hslots, hbbs, hpmem, ⟨hleft, nofun⟩, fun _ => rfl, hcode⟩, rfl, id, id⟩

theorem releaseReset_keeps {s : State} (hs : Inv s) : Keeps s (releaseReset s) := by
  obtain ⟨hlegal, hslots, hbbs, hpmem, hraster, -, hcode⟩ := hs
  exact ⟨⟨hlegal, hslots, hbbs, hpmem, hraster, nofun, hcode⟩, rfl, id, id⟩

theorem takeTurn_keeps {turn : Turn} {s t : State} (hs : Inv s) (h : takeTurn turn s = .next t) :
    Keeps s t := by
  match turn with
  | .host => exact hostTurn_keeps hs h
  | .core =>
    cases hb : s.busy with
    | true => exact coreTurn_keeps hs (takeTurn_core_of_busy hb ▸ h)
    | false =>
      obtain rfl := Host.Outcome.next.inj ((takeTurn_core_of_idle hb).symm.trans h)
      exact ⟨hs, rfl, id, id⟩
  | .assertReset =>
    obtain rfl := Host.Outcome.next.inj h
    exact assertReset_keeps hs
  | .releaseReset =>
    obtain rfl := Host.Outcome.next.inj h
    exact releaseReset_keeps hs

/-- A step is a turn, with the schedule's head taken off (log 2). -/
theorem step_eq_takeTurn (s : State) :
    ∃ turn, step s = takeTurn turn { s with turns := s.turns.tail } := by
  cases hhead : s.turns.head? with
  | none =>
    have hnil := List.head?_eq_none_iff.1 hhead
    exact ⟨if s.busy then .core else .host, by
      rw [State.with_tail_of_unscheduled hnil, step, hnil]⟩
  | some turn => exact ⟨turn, step_of_head? hhead⟩

/-- Settles O59: a step is a turn, and every turn keeps the invariant, which does not speak of the
schedule. -/
theorem everyStepKeepsTheInvariant : Obligations.EveryStepKeepsTheInvariant := by
  intro s t hs h
  obtain ⟨turn, hstep⟩ := step_eq_takeTurn s
  exact takeTurn_keeps (s := { s with turns := s.turns.tail }) hs (hstep ▸ h)

end Sys2Proof.Machine
end

section
/-! Latched operands (10_state.md R25, R183): writing other values into ARG0 and ARG1 commutes with every
command. -/

namespace Sys2Proof.Machine

/-- The state with other values in ARG0 and ARG1. -/
def State.withArgs (s : State) (v₀ v₁ : Word) : State := { s with arg0 := v₀, arg1 := v₁ }

/-- An outcome with a function applied to its next state. -/
def onNext (f : State → State) : Host.Outcome State Fault Refusal → Host.Outcome State Fault Refusal
  | .next s => .next (f s)
  | .fault r => .fault r
  | .refused r => .refused r

/-- A conditional on latched data, its branches each commuting with `f`. -/
theorem ite_onNext {P : Prop} [Decidable P] (f : State → State)
    {a b a' b' : Host.Outcome State Fault Refusal} (ha : a' = onNext f a) (hb : b' = onNext f b) :
    (if P then a' else b') = onNext f (if P then a else b) := by
  split
  · exact ha
  · exact hb

/-- A payload bit does not depend on ARG0 and ARG1. -/
theorem payloadBit_withArgs (m : PayloadSource) (s : State) (v₀ v₁ : Word) :
    payloadBit m (s.withArgs v₀ v₁) = payloadBit m s := by
  cases m <;> rfl

/-- ENC's work depends on the state through its payload bits only (R130, R132). -/
theorem embedChannel_congr {m : PayloadSource} {s s' : State} (h : payloadBit m s = payloadBit m s')
    (N : Nat) : embedChannel m s N = embedChannel m s' N := by
  funext wk c
  simp only [embedChannel, h]

theorem embedPixel_congr {m : PayloadSource} {s s' : State} (h : payloadBit m s = payloadBit m s')
    (N : Nat) : embedPixel m s N = embedPixel m s' N := by
  funext px k st
  simp only [embedPixel, embedChannel_congr h]

theorem encScan_congr {m : PayloadSource} {s s' : State} (h : payloadBit m s = payloadBit m s')
    (N : Nat) (ps : List (Nat × Nat)) (e : EncSession) : encScan m s N ps e = encScan m s' N ps e := by
  induction ps generalizing e with
  | nil => rfl
  | cons p ps ih =>
    simp only [encScan, ih]
    rw [embedPixel_congr h]

theorem encRun_withArgs (m : PayloadSource) (s : State) (v₀ v₁ : Word) :
    encRun m (s.withArgs v₀ v₁) = encRun m s :=
  encScan_congr (payloadBit_withArgs m s v₀ v₁) ..

theorem execBrdbit_withArgs (s : State) (v₀ v₁ : Word) :
    execBrdbit (s.withArgs v₀ v₁) = onNext (·.withArgs v₀ v₁) (execBrdbit s) := by
  have hread : readBit (s.withArgs v₀ v₁).cfg (s.withArgs v₀ v₁).epoch (s.withArgs v₀ v₁).stream =
      readBit s.cfg s.epoch s.stream := rfl
  unfold execBrdbit
  rw [hread]
  split <;> rfl

theorem execEnc_withArgs (m : PayloadSource) (s : State) (v₀ v₁ : Word) :
    execEnc m (s.withArgs v₀ v₁) = onNext (·.withArgs v₀ v₁) (execEnc m s) := by
  simp only [execEnc, encRun_withArgs]
  exact ite_onNext _ rfl (ite_onNext _ rfl rfl)

/-- Every command commutes with writing other values into ARG0 and ARG1 (R25, R183). -/
theorem exec_withArgs (i : Instr) (s : State) (v₀ v₁ : Word) :
    exec i (s.withArgs v₀ v₁) = onNext (·.withArgs v₀ v₁) (exec i s) :=
  match i with
  | .addr | .mask | .cnew _ | .cpos _ | .cadv _ | .cshift _ | .binit => ite_onNext _ rfl rfl
  | .crem _ | .ccmp _ _ | .csub _ _ | .cget _ | .beos | .bget => rfl
  | .brdbit => execBrdbit_withArgs s v₀ v₁
  | .brdbits => ite_onNext _ rfl (ite_onNext _ rfl rfl)
  | .enc m => execEnc_withArgs m s v₀ v₁
  | .dec => ite_onNext _ rfl (ite_onNext _ rfl rfl)

/-- Settles O43. -/
theorem operandsAreLatched : Obligations.OperandsAreLatched := by
  intro i s t v₀ v₁ h
  have hcomm := exec_withArgs i s v₀ v₁
  rwa [h] at hcomm

end Sys2Proof.Machine
end

section
/-! The register window and the host's turn (10_state.md R21, R22; 20_memory.md R51, R52), and the placed
command word (log 3). -/

namespace Sys2Proof.Machine

/-- An aligned word access inside the window is given its offset (R50). -/
theorem busOffset_of_aligned (s : State) {off : Nat} (hin : off < windowBytes) (halign : off % 4 = 0) :
    s.busOffset (s.cfg.regBase + off) 4 = .ok off := by
  simp [State.busOffset, hin, halign]

/-- An offset past CFG_PMEM names no register (R52). -/
theorem regAt_of_reserved {off : Nat} (h : 0x20 ≤ off) : regAt off = none := by
  refine List.find?_eq_none.2 fun r _ => ?_
  have : regOffset r ≤ 0x1C := by cases r <;> decide
  simp only [beq_iff_eq]
  omega

/-- An aligned word read of the window answers what its offset reads as and changes nothing but the
host's record (R51, R52). -/
theorem hostDo_busRead (s : State) {off : Nat} (hin : off < windowBytes) (halign : off % 4 = 0) :
    hostDo (.busRead (s.cfg.regBase + off) 4) s = .next (s.hostGot (s.readReg (regAt off))) := by
  simp only [hostDo, hostRead, busOffset_of_aligned s hin halign]

/-- A read at a register's own offset answers that register (R21). -/
theorem hostDo_busRead_reg (s : State) (r : HostReg) :
    hostDo (.busRead (s.cfg.regBase + regOffset r) 4) s = .next (s.hostGot (s.readReg (some r))) := by
  simp only [hostDo, hostRead, busOffset_reg, regAt_regOffset]

/-- Settles O46. -/
theorem registerReads : Obligations.RegisterReads := by
  intro s
  have hreg := hostDo_busRead_reg s
  refine ⟨hreg .cmd, hreg .arg0, hreg .arg1, hreg .res0, hreg .res1, hreg .status, hreg .cfgBuf,
    hreg .cfgPmem, fun off hlow hhigh halign => ?_⟩
  have hin : off < windowBytes := by
    unfold windowBytes
    omega
  rw [hostDo_busRead s hin halign, regAt_of_reserved hlow]
  rfl

/-- A write by register name is a register write, tried again while it stalls (R51). -/
theorem hostDo_wr (s : State) (r : HostReg) (v : Word) :
    hostDo (.wr r v) s = .next (((s.writeReg v (some r)).map State.hostNext).getD s) := by
  simp only [hostDo, hostWrite, busOffset_reg, regAt_regOffset]
  cases s.writeReg v (some r) <;> rfl

/-- Settles O44. -/
theorem cmdWriteIsAcceptedOrStalls : Obligations.CmdWriteIsAcceptedOrStalls := by
  intro s w
  refine ⟨fun hidle hrel => ?_, fun hbusy hrel => ?_⟩
  · have haccept : s.writeReg w (some .cmd) = some (s.accept w) := by
      simp [State.writeReg, hidle, hrel]
    rw [hostDo_wr, haccept]
    rfl
  · have hstall : s.writeReg w (some .cmd) = none := by simp [State.writeReg, hbusy, hrel]
    rw [hostDo_wr, hstall]
    rfl

/-- STATUS by its bits: the code's four, 27 zeros, and BUSY (R22). -/
theorem getLsbD_statusWord (busy : Bool) (code : Code) (n : Nat) :
    (statusWord busy code).getLsbD n =
      if n < 4 then code.toBits.getLsbD n else if n < 31 then false else (decide (n = 31) && busy) := by
  have hcode := BitVec.getLsbD_append (x := (if busy then 1#1 else 0#1) ++ 0#27) (y := code.toBits)
    (i := n)
  have hbusy := BitVec.getLsbD_append (x := if busy then 1#1 else 0#1) (y := 0#27) (i := n - 4)
  rw [hbusy] at hcode
  refine hcode.trans ?_
  split
  · rfl
  · have hzeros : n - 4 < 27 ↔ n < 31 := by omega
    simp only [hzeros, BitVec.getLsbD_zero]
    split
    · rfl
    · have htop : n - 4 - 27 = 0 ↔ n = 31 := by omega
      cases busy <;> simp [htop]

/-- Settles O47: each field is read off the bits of STATUS. -/
theorem statusWordFields : Obligations.StatusWordFields := by
  intro busy code
  refine ⟨?busy, ?zeros, ?code⟩
  case busy => rw [getLsbD_statusWord]; simp
  case zeros =>
    intro n hlow hhigh
    rw [getLsbD_statusWord, if_neg (by omega), if_pos (by omega)]
  case code =>
    refine BitVec.eq_of_getLsbD_eq fun n hn => ?_
    simp [getLsbD_statusWord, hn]

/-- What a host turn leaves alone in any case: all but what a bus write, a PMEM write and a binding
reach (R35, R47, R51). -/
theorem hostTurn_frame {s t : State} (h : hostTurn s = .next t) :
    t = { s with cmd := t.cmd, arg0 := t.arg0, arg1 := t.arg1, busy := t.busy, latch := t.latch,
                 pmem := t.pmem, raster := t.raster, src := t.src, host := t.host } := by
  rcases hostTurn_next h with rfl | ⟨a, ha⟩
  · rfl
  · obtain ⟨hst, u, rfl, rfl | ⟨w, rfl, -⟩ | ⟨v, rfl, -⟩ | ⟨v, rfl, -⟩ | ⟨k, v, rfl, -⟩ | ⟨bytes, rfl, -⟩ |
      ⟨r, rfl, -⟩⟩ := hostDo_cases ha <;> rfl

/-- While BUSY = 1 a host turn reaches ARG0, ARG1 and the host's own record only (R51). -/
theorem hostTurn_frame_of_busy {s t : State} (hb : s.busy = true) (h : hostTurn s = .next t) :
    t = { s with arg0 := t.arg0, arg1 := t.arg1, host := t.host } := by
  have hbusy : s.busy ≠ false := by simp [hb]
  rcases hostTurn_next h with rfl | ⟨a, ha⟩
  · rfl
  · obtain ⟨hst, u, rfl, rfl | ⟨w, -, hidle, -⟩ | ⟨v, rfl, -⟩ | ⟨v, rfl, -⟩ | ⟨k, v, -, -, hidle, -⟩ |
      ⟨bytes, -, hidle⟩ | ⟨r, -, hidle, -⟩⟩ := hostDo_cases ha
    · rfl
    · exact absurd hidle hbusy
    · rfl
    · rfl
    all_goals exact absurd hidle hbusy

/-- Settles O52. -/
theorem hostTurnFrame : Obligations.HostTurnFrame := by
  intro s t h
  have hf := hostTurn_frame h
  refine ⟨?_, ?_, ?_, ?_, ?_, ?_, ?_, ?_, ?_, ?_, fun hb => ?busy⟩
  case busy =>
    have hfb := hostTurn_frame_of_busy hb h
    have hstill : t.busy = s.busy := by rw [hfb]
    refine ⟨hstill.trans hb, ?_, ?_, ?_, ?_, ?_⟩ <;> rw [hfb]
  all_goals rw [hf]

/-- The decoder reads a command from its own word (R65, R68). -/
theorem decode_encode (i : Instr) : decode (encode i) = .ok i := by
  cases i with
  | addr | mask | binit | brdbit | brdbits | beos | bget | dec => decide
  | cnew ca | cpos ca | cadv ca | crem ca | cshift ca | cget ca => revert ca; decide
  | ccmp ca cb | csub ca cb => revert ca cb; decide
  | enc m => cases m <;> decide

/-- A command word is 32 bits long (R62). -/
theorem tableWord_toNat (w : Word) : tableWord 32 w.toNat = w := by
  rw [tableWord, Nat.mod_eq_of_lt w.isLt, BitVec.ofNat_toNat, BitVec.setWidth_eq]

/-- The step after a word is placed is the core's turn in the state its acceptance leaves (log 3). -/
theorem step_withFetchWord (s : State) (n w : Nat) :
    step (s.withFetchWord n w) = coreTurn (State.accept { s with resetHeld := false } (tableWord n w)) :=
  (step_of_cons (State.withFetchWord_turns s n w)).trans (takeTurn_core_of_busy rfl)

/-- Settles O58. -/
theorem placedWordRunsNext : Obligations.PlacedWordRunsNext := by
  intro s i
  have hdecode := decode_encode i
  refine ⟨?_, ?_⟩
  · rw [decodeTableWord, tableWord_toNat, hdecode]
    rfl
  · rw [step_withFetchWord, tableWord_toNat]
    exact coreTurn_of_ok hdecode

end Sys2Proof.Machine
end

section
/-! The byte source (20_memory.md section 4; 42_bbs.md section 3, R123): who takes bytes from SRC, and
that they take them from its front. -/

namespace Sys2Proof.Machine

/-- A bit read inside the window takes nothing from SRC (R115, R123). -/
theorem readBit_src_of_inWindow {cfg : Params} {epoch : Nat} {st st' : Stream} {b : Bool}
    (hin : st.bbs.flat.toNat < st.bbs.fill * 8) (h : readBit cfg epoch st = some (b, st')) :
    st'.src = st.src := by
  obtain ⟨w, hw, -, rfl⟩ := readBit_some h
  rcases readyWindow_cases cfg epoch st with ⟨-, e⟩ | ⟨hge, -⟩ | ⟨hge, -⟩
  · obtain rfl := Option.some.inj (hw.symm.trans e)
    rfl
  · exact absurd hin (Nat.not_lt.2 hge)
  · exact absurd hin (Nat.not_lt.2 hge)

/-! ### ENC from PMEM reads no stream (R130) -/

theorem embedChannel_pmem_st (s : State) (N : Nat) (wk : PixelWork) (c : Channel) :
    (embedChannel .pmem s N wk c).st = wk.st := by
  rcases embedChannel_cases .pmem s N wk c with ⟨-, e⟩ | ⟨-, -, -, e⟩ | ⟨b, st', -, -, hb, e⟩
  · rw [e]
  · rw [e]
  · simp only [payloadBit, Option.some.injEq, Prod.mk.injEq] at hb
    rw [e]
    exact hb.2.symm

theorem embedPixel_pmem_st (s : State) (N : Nat) (px : Pixel) (k : Nat) (st : Stream) :
    (embedPixel .pmem s N px k st).st = st := by
  simp only [embedPixel, List.foldl_cons, List.foldl_nil, embedChannel_pmem_st]

theorem encScan_pmem_st (s : State) (N : Nat) (ps : List (Nat × Nat)) (e : EncSession) :
    (encScan .pmem s N ps e).1.st = e.st := by
  induction ps generalizing e with
  | nil => rfl
  | cons p ps ih =>
    obtain ⟨x, y⟩ := p
    have hpx := embedPixel_pmem_st s N (e.raster.getPixel x y) e.k e.st
    simp only [encScan]
    split
    · rfl
    · split
      · exact ih e
      · split
        · split <;> exact hpx
        · exact (ih _).trans hpx

/-! ### Effects -/

section
variable {i : Instr} {s u : State} {c : Code}

/-- SRC only ever loses bytes at its front (R44). -/
theorem Effect.src_suffix (he : Effect i s c u) : u.src <:+ s.src := by
  have hread : ∀ st b st', st.src <:+ s.src → readBit s.cfg s.epoch st = some (b, st') →
      st'.src <:+ s.src := fun _ _ _ hst hb => (readBit_src hb).trans hst
  have hrefl := List.suffix_refl s.src
  cases he with
  | windowFilled => exact List.drop_suffix ..
  | bitRead hb => exact readBit_src hb
  | bitsRead _ hr => exact hr ▸ readBitsLoop_stream (P := (·.src <:+ s.src)) hread _ _ _ _ hrefl
  | embedded => exact encScan_stream (P := (·.src <:+ s.src)) hread _ _ hrefl
  | unchanged | results | slotWritten | extracted => exact hrefl

/-- A command that reads no stream leaves SRC and the BBS state alone (R123, R130). -/
theorem Effect.stream_eq (he : Effect i s c u) (hi : readsStream i = false) : u.stream = s.stream := by
  cases he with
  | windowFilled | bitRead | bitsRead => simp [readsStream] at hi
  | @embedded m =>
    cases m with
    | pmem => exact encScan_pmem_st ..
    | bbs => simp [readsStream] at hi
  | unchanged | results | slotWritten | extracted => rfl

/-- BRDBIT inside the window leaves SRC alone (R115, R123). -/
theorem Effect.brdbit_src_of_inWindow (he : Effect .brdbit s c u)
    (hin : s.bbs.flat.toNat < s.bbs.fill * 8) : u.src = s.src := by
  cases he with
  | bitRead hb => exact readBit_src_of_inWindow hin hb
  | unchanged | results | slotWritten => rfl

end

/-- Settles O29. -/
theorem sourceIsConsumedOnlyByStreamReads : Obligations.SourceIsConsumedOnlyByStreamReads := by
  intro i s t h
  obtain ⟨c, u, he, rfl⟩ := exec_effect h
  refine ⟨he.src_suffix, fun hi => ?quiet, fun hi hin => ?inWindow⟩
  case quiet =>
    have hst := he.stream_eq hi
    exact ⟨congrArg Stream.src hst, congrArg Stream.bbs hst⟩
  case inWindow =>
    subst hi
    exact he.brdbit_src_of_inWindow hin

end Sys2Proof.Machine
end

section
/-! What the core may do to a pixel (20_memory.md section 3, R42): an opaque pixel's channels take other
low bits, and nothing else of the raster changes. -/

namespace Sys2Proof.Machine

/-- What the core keeps of a pixel `p` that becomes `q`: its alpha, all of it when it is transparent, and
bits 7 to 1 of its channels (R42, R129, R131). -/
abbrev Pixel.Kept (p q : Pixel) : Prop :=
  q.a = p.a ∧ (p.transparent → q = p) ∧ ∀ c : Channel, (q.channel c).toNat / 2 = (p.channel c).toNat / 2

theorem Pixel.kept_refl (p : Pixel) : p.Kept p := ⟨rfl, fun _ => rfl, fun _ => rfl⟩

theorem Pixel.Kept.trans {p q r : Pixel} (hpq : p.Kept q) (hqr : q.Kept r) : p.Kept r := by
  obtain ⟨ha, htr, hbits⟩ := hpq
  obtain ⟨ha', htr', hbits'⟩ := hqr
  exact ⟨ha'.trans ha, fun hp => (htr' (ha.trans hp)).trans (htr hp), fun c => (hbits' c).trans (hbits c)⟩

/-- Embedding a bit keeps bits 7 to 1 (R131). -/
theorem embedBit_div_two (c : Byte) (b : Bool) : (embedBit c b).toNat / 2 = c.toNat / 2 := by
  have hbit : (bitByte b).toNat / 2 = 0 := by cases b <;> decide
  have hhigh : c.toNat / 2 < 2 ^ 7 := by omega
  calc (embedBit c b).toNat / 2
      = (c.toNat / 2 &&& (2 ^ 7 - 1)) ||| (bitByte b).toNat / 2 := by
        simp [embedBit, Nat.or_div_two, Nat.and_div_two]
    _ = c.toNat / 2 := by
        rw [hbit, Nat.or_zero, Nat.and_two_pow_sub_one_of_lt_two_pow hhigh]

theorem embedChannel_div_two (m : PayloadSource) (s : State) (N : Nat) (wk : PixelWork) (c c' : Channel) :
    ((embedChannel m s N wk c).px.channel c').toNat / 2 = (wk.px.channel c').toNat / 2 := by
  rcases embedChannel_cases m s N wk c with ⟨-, e⟩ | ⟨-, -, -, e⟩ | ⟨b, st', -, -, -, e⟩
  · rw [e]
  · rw [e]
  · rw [e]
    dsimp only
    rw [Pixel.channel_setChannel]
    split
    next hc => exact hc ▸ embedBit_div_two ..
    next => rfl

theorem embedPixel_div_two (m : PayloadSource) (s : State) (N : Nat) (px : Pixel) (k : Nat) (st : Stream)
    (c : Channel) :
    ((embedPixel m s N px k st).px.channel c).toNat / 2 = (px.channel c).toNat / 2 := by
  simp only [embedPixel, List.foldl_cons, List.foldl_nil, embedChannel_div_two]

/-- The work on an opaque pixel keeps what R42 names of it. -/
theorem embedPixel_kept (m : PayloadSource) (s : State) (N : Nat) {px : Pixel} (hpx : ¬ px.transparent)
    (k : Nat) (st : Stream) : px.Kept (embedPixel m s N px k st).px :=
  ⟨embedPixel_alpha .., fun h => absurd h hpx, embedPixel_div_two m s N px k st⟩

/-- What GetPixel answers after a PutPixel, at any coordinates: the pixel put, where it replaced the one
read before, or the pixel read before. -/
theorem Raster.getPixel_putPixel_cases (r : Raster) (x y x' y' : Nat) (p : Pixel) :
    (r.getPixel x' y' = r.getPixel x y ∧ (r.putPixel x y p).getPixel x' y' = p) ∨
    (r.putPixel x y p).getPixel x' y' = r.getPixel x' y' := by
  simp only [Raster.getPixel, Raster.putPixel, List.getD_eq_getElem?_getD, List.getElem?_set]
  split
  next hpos =>
    split
    · exact .inl ⟨by rw [hpos], rfl⟩
    next hout => exact .inr (by rw [← hpos, List.getElem?_eq_none (Nat.not_lt.1 hout)])
  next => exact .inr rfl

/-- Every pixel of `r` is kept in `r'`. -/
abbrev Raster.PixelsKept (r r' : Raster) : Prop := ∀ x y, (r.getPixel x y).Kept (r'.getPixel x y)

/-- Putting a pixel that keeps the one it replaces keeps every pixel. -/
theorem Raster.PixelsKept.putPixel {r r' : Raster} (h : r.PixelsKept r') {x y : Nat} {p : Pixel}
    (hp : (r'.getPixel x y).Kept p) : r.PixelsKept (r'.putPixel x y p) := by
  intro x' y'
  rcases r'.getPixel_putPixel_cases x y x' y' p with ⟨hsame, e⟩ | e
  · rw [e]
    exact (h x' y').trans (hsame ▸ hp)
  · rw [e]
    exact h x' y'

/-- ENC's scan keeps every pixel (R42). -/
theorem encScan_pixelsKept (m : PayloadSource) (s : State) (N : Nat) {r : Raster} (ps : List (Nat × Nat))
    {e : EncSession} (he : r.PixelsKept e.raster) : r.PixelsKept (encScan m s N ps e).1.raster := by
  induction ps generalizing e with
  | nil => exact he
  | cons p ps ih =>
    obtain ⟨x, y⟩ := p
    simp only [encScan]
    split
    · exact he
    · split
      case isTrue => exact ih he
      case isFalse hopaque =>
        have hput := he.putPixel (embedPixel_kept m s N hopaque e.k e.st)
        split
        · split
          · exact he
          · exact hput
        · exact ih hput

section
variable {i : Instr} {s u : State} {c : Code}

/-- Only ENC reaches the raster, and only by PutPixel calls (R40). -/
theorem Effect.raster_putAll (he : Effect i s c u) : ∃ puts, u.raster = s.raster.putAll puts := by
  cases he with
  | embedded => exact ⟨_, encScan_putAll _ s _ _ (r := s.raster) rfl⟩
  | unchanged | results | slotWritten | windowFilled | bitRead | bitsRead | extracted => exact ⟨[], rfl⟩

theorem Effect.pixelsKept (he : Effect i s c u) : s.raster.PixelsKept u.raster := by
  have hrefl : s.raster.PixelsKept s.raster := fun _ _ => Pixel.kept_refl _
  cases he with
  | embedded => exact encScan_pixelsKept _ s _ _ hrefl
  | unchanged | results | slotWritten | windowFilled | bitRead | bitsRead | extracted => exact hrefl

end

/-- Settles O36: the pixels are kept at every coordinate, and PutPixel calls keep the array. -/
theorem alphaAndHighBitsNeverChange : Obligations.AlphaAndHighBitsNeverChange := by
  intro i s t hwf h
  obtain ⟨c, u, he, rfl⟩ := exec_effect h
  obtain ⟨puts, hputs⟩ := he.raster_putAll
  refine ⟨?width, ?height, he.raster_wf hwf, fun x y _ _ => he.pixelsKept x y⟩
  case width => rw [State.complete_raster, hputs, Raster.putAll_width]
  case height => rw [State.complete_raster, hputs, Raster.putAll_height]

end Sys2Proof.Machine
end

section
/-! The host's side of the memories (20_memory.md R35, R43, R47, R50 to R52): the PMEM port, the borrowed
resources, and the writes and accesses of the register window that do not reach the core. -/

namespace Sys2Proof.Machine

/-- A PMEM write sets the byte at its address and no other (R17). -/
theorem pmemRead_pmemWrite (epoch : Nat) (m : Memory) (a : Nat) (v : Byte) (a' : Nat) :
    pmemRead epoch (pmemWrite m a v) a' = if a = a' then v else pmemRead epoch m a' := by
  by_cases h : a = a' <;> simp [pmemWrite, pmemRead, Memory.load?_store, h]

/-- An access inside the window that is no aligned word has no offset (R50). -/
theorem busOffset_of_nonWord {s : State} {addr size : Nat} (hlow : s.cfg.regBase ≤ addr)
    (hhigh : addr < s.cfg.regBase + 4096) (hword : size ≠ 4 ∨ (addr - s.cfg.regBase) % 4 ≠ 0) :
    s.busOffset addr size = .error .nonWordAccess := by
  have hin : ¬ (addr < s.cfg.regBase ∨ addr ≥ s.cfg.regBase + windowBytes) := by
    unfold windowBytes
    omega
  rw [State.busOffset, if_neg hin, if_pos hword]

/-- An aligned word write of the window is a write of what its offset names, tried again while it
stalls (R51, R52). -/
theorem hostDo_busWrite (s : State) {off : Nat} (hin : off < windowBytes) (halign : off % 4 = 0) (v : Word) :
    hostDo (.busWrite (s.cfg.regBase + off) 4 v) s =
      .next (((s.writeReg v (regAt off)).map State.hostNext).getD s) := by
  simp only [hostDo, hostWrite, busOffset_of_aligned s hin halign]
  cases s.writeReg v (regAt off) <;> rfl

/-- Settles O45. -/
theorem otherRegisterWrites : Obligations.OtherRegisterWrites := by
  intro s v hrel
  refine ⟨?arg0, ?arg1, fun r hr => ?readOnly, fun off hlow hhigh halign => ?reserved⟩
  case arg0 =>
    have hwrite : s.writeReg v (some .arg0) = some { s with arg0 := v } := by simp [State.writeReg, hrel]
    rw [hostDo_wr, hwrite]
    rfl
  case arg1 =>
    have hwrite : s.writeReg v (some .arg1) = some { s with arg1 := v } := by simp [State.writeReg, hrel]
    rw [hostDo_wr, hwrite]
    rfl
  case readOnly =>
    have hwrite : s.writeReg v (some r) = some s := by
      simp only [List.mem_cons, List.not_mem_nil, or_false] at hr
      rcases hr with rfl | rfl | rfl | rfl | rfl <;> rfl
    rw [hostDo_wr, hwrite]
    rfl
  case reserved =>
    have hin : off < windowBytes := by
      unfold windowBytes
      omega
    rw [hostDo_busWrite s hin halign, regAt_of_reserved hlow]
    rfl

/-- Settles O48: such an access has no offset, so neither direction has a meaning. -/
theorem nonWordAccessesAreRefused : Obligations.NonWordAccessesAreRefused := by
  intro s addr size v hlow hhigh hword
  have hoff := busOffset_of_nonWord hlow hhigh hword
  exact ⟨by simp only [hostDo, hostWrite, hoff], by simp only [hostDo, hostRead, hoff]⟩

/-- Settles O49. -/
theorem pmemPort : Obligations.PmemPort := by
  intro s a v
  refine ⟨fun hb => ?stall, fun hb => ?read, fun hb hrel ha => ?write, fun hb ha => ?beyond⟩
  case stall => simp [hostDo, hostPmemWrite, hostPmemRead, hb]
  case read =>
    refine ⟨if a < s.cfg.pmemBytes then (s.pmemByte a).setWidth 32 else 0, ?_, ?_⟩
    · split
      · exact BitVec.toNat_setWidth_of_le (by decide)
      · rfl
    · simp [hostDo, hostPmemRead, hb, State.hostGot]
  case write =>
    refine ⟨pmemWrite s.pmem a v, ?_, ?_, fun a' hne => ?_⟩
    · simp [hostDo, hostPmemWrite, hb, hrel, ha, State.hostNext]
    · rw [pmemRead_pmemWrite, if_pos rfl]
    · exact (pmemRead_pmemWrite ..).trans (if_neg hne.symm)
  case beyond => simp [hostDo, hostPmemWrite, hb, ha, State.hostNext]

/-- Settles O50. -/
theorem borrowedResourcesChangeOnlyWhileIdle : Obligations.BorrowedResourcesChangeOnlyWhileIdle := by
  intro s bytes r
  refine ⟨fun hidle => ⟨?source, fun hwf => ?raster⟩, fun hb => ?refused⟩
  case source => simp [hostDo, hostBindSource, hidle, State.hostNext]
  case raster => simp [hostDo, hostBindRaster, hidle, hwf, State.hostNext]
  case refused => simp [hostDo, hostBindSource, hostBindRaster, hb]

end Sys2Proof.Machine
end

section
/-! Command words (30_encoding.md sections 1 and 3, R61 to R67): a word with RSV = 0 is the packing of its
fields, so the decoder drops no bit; the legality table, read through the fields its masks keep. -/

namespace Sys2Proof.Machine

/-- Packing by sums: the fields do not overlap (R61). -/
theorem packWord_eq_sum (m : PayloadSource) (cb ca : SlotNo) {opc : Nat} (hopc : opc < 2 ^ 8) :
    packWord m cb ca opc = BitVec.ofNat 32 (modeBit m * 4096 + (cb.val * 1024 + (ca.val * 256 + opc))) := by
  have hca : ca.val <<< 8 ||| opc = ca.val * 256 + opc := by
    rw [← Nat.shiftLeft_add_eq_or_of_lt hopc, Nat.shiftLeft_eq]
  have hcb : cb.val <<< 10 ||| (ca.val * 256 + opc) = cb.val * 1024 + (ca.val * 256 + opc) := by
    rw [← Nat.shiftLeft_add_eq_or_of_lt (by omega), Nat.shiftLeft_eq]
  have hm : modeBit m <<< 12 ||| (cb.val * 1024 + (ca.val * 256 + opc)) =
      modeBit m * 4096 + (cb.val * 1024 + (ca.val * 256 + opc)) := by
    rw [← Nat.shiftLeft_add_eq_or_of_lt (by omega), Nat.shiftLeft_eq]
  rw [packWord, Nat.lor_assoc, Nat.lor_assoc, hca, hcb, hm]

/-- The M bit of a word's mode is bit 12 (R61). -/
theorem modeBit_modeField (w : Word) : modeBit (modeField w) = (w.extractLsb' 12 1).toNat := by
  unfold modeField
  obtain h | h := BitVec.eq_zero_or_eq_one (w.extractLsb' 12 1) <;> simp [h, modeBit]

/-- A word with RSV = 0 is the packing of its fields (R61). -/
theorem packWord_fields {w : Word} (hrsv : rsvField w = 0) :
    packWord (modeField w) (cbField w) (caField w) (opcField w).toNat = w := by
  have hhigh : w.toNat / 8192 % 524288 = 0 := by
    simpa [rsvField, Nat.shiftRight_eq_div_pow] using congrArg BitVec.toNat hrsv
  rw [packWord_eq_sum _ _ _ (opcField w).isLt, modeBit_modeField]
  refine BitVec.eq_of_toNat_eq ?_
  simp only [opcField, caField, cbField, BitVec.extractLsb'_toNat, BitVec.val_toFin, BitVec.toNat_ofNat,
    Nat.shiftRight_eq_div_pow]
  have := w.isLt
  omega

section
variable {w : Word} {i : Instr}

/-- A command that uses no field is read when all of them are 0 (R65, R66). -/
theorem decodeNoField_eq_ok {j : Instr} :
    decodeNoField j w = .ok i ↔ (caField w = 0 ∧ cbField w = 0 ∧ modeField w = .pmem) ∧ j = i := by
  unfold decodeNoField
  split <;> simp [*]

/-- A command that uses CA is read with its slot when CB and M are 0 (R65, R66). -/
theorem decodeCa_eq_ok {f : SlotNo → Instr} :
    decodeCa f w = .ok i ↔ (cbField w = 0 ∧ modeField w = .pmem) ∧ f (caField w) = i := by
  unfold decodeCa
  split <;> simp [*]

/-- A command that uses CA and CB is read with its slots when M is 0 (R65, R66). -/
theorem decodeCaCb_eq_ok {f : SlotNo → SlotNo → Instr} :
    decodeCaCb f w = .ok i ↔ modeField w = .pmem ∧ f (caField w) (cbField w) = i := by
  unfold decodeCaCb
  split <;> simp [*]

/-- ENC is read with its mode when CA and CB are 0 (R65, R66). -/
theorem decodeMode_eq_ok {f : PayloadSource → Instr} :
    decodeMode f w = .ok i ↔ (caField w = 0 ∧ cbField w = 0) ∧ f (modeField w) = i := by
  unfold decodeMode
  split <;> simp [*]

end

/-- A word that decodes has RSV = 0, and its command's word is packed of its own fields (R61, R65). -/
theorem encode_eq_packWord_of_decode {w : Word} {i : Instr} (h : decode w = .ok i) :
    rsvField w = 0 ∧ encode i = packWord (modeField w) (cbField w) (caField w) (opcField w).toNat := by
  unfold decode at h
  split at h
  · cases h
  next hrsv =>
  refine ⟨not_not.1 hrsv, ?_⟩
  split at h
  case h_1 hopc | h_2 hopc | h_11 hopc | h_12 hopc | h_13 hopc | h_14 hopc | h_15 hopc | h_17 hopc =>
    obtain ⟨⟨hca, hcb, hm⟩, rfl⟩ := decodeNoField_eq_ok.1 h
    rw [hm, hcb, hca, hopc]
    rfl
  case h_3 hopc | h_4 hopc | h_5 hopc | h_6 hopc | h_7 hopc | h_10 hopc =>
    obtain ⟨⟨hcb, hm⟩, rfl⟩ := decodeCa_eq_ok.1 h
    rw [hm, hcb, hopc]
    rfl
  case h_8 hopc | h_9 hopc =>
    obtain ⟨hm, rfl⟩ := decodeCaCb_eq_ok.1 h
    rw [hm, hopc]
    rfl
  case h_16 hopc =>
    obtain ⟨⟨hca, hcb⟩, rfl⟩ := decodeMode_eq_ok.1 h
    rw [hcb, hca, hopc]
    rfl
  case h_18 => cases h

/-- A word that decodes is its command's word: no bit of it is dropped (R61, R65). -/
theorem encode_of_decode {w : Word} {i : Instr} (h : decode w = .ok i) : encode i = w := by
  obtain ⟨hrsv, hpack⟩ := encode_eq_packWord_of_decode h
  exact hpack.trans (packWord_fields hrsv)

/-- Settles O2: the decoder reads every command's word, and a word that decodes is the packing of its
fields, which is what the encoder writes. -/
theorem decodeAndEncodeAgree : Obligations.DecodeAndEncodeAgree := by
  intro w i
  refine ⟨encode_of_decode, ?_⟩
  rintro rfl
  exact decode_encode i

/-- Settles O1. -/
theorem specWordsDecodeAsWritten : Obligations.SpecWordsDecodeAsWritten := by
  unfold Obligations.SpecWordsDecodeAsWritten
  decide

/-! ### Legality -/

/-- Every command's word is legal (R66): the family EncodesLegally, gathered. -/
theorem wordLegal_encode (i : Instr) : wordLegal (encode i) = true :=
  match i with
  | .addr => Laws.EncodesLegally.addr
  | .mask => Laws.EncodesLegally.mask
  | .cnew ca => Laws.EncodesLegally.cnew ca
  | .cpos ca => Laws.EncodesLegally.cpos ca
  | .cadv ca => Laws.EncodesLegally.cadv ca
  | .crem ca => Laws.EncodesLegally.crem ca
  | .cshift ca => Laws.EncodesLegally.cshift ca
  | .ccmp ca cb => Laws.EncodesLegally.ccmp ca cb
  | .csub ca cb => Laws.EncodesLegally.csub ca cb
  | .cget ca => Laws.EncodesLegally.cget ca
  | .binit => Laws.EncodesLegally.binit
  | .brdbit => Laws.EncodesLegally.brdbit
  | .brdbits => Laws.EncodesLegally.brdbits
  | .beos => Laws.EncodesLegally.beos
  | .bget => Laws.EncodesLegally.bget
  | .enc m => Laws.EncodesLegally.enc m
  | .dec => Laws.EncodesLegally.dec

/-- A word is legal when it matches some row (R66). -/
theorem wordLegal_iff (w : Word) : wordLegal w = true ↔ ∃ r ∈ legalRows, w &&& r.mask = r.pattern := by
  simp [wordLegal]

/-- A row fixes a field at a value: its mask is all ones there, and its pattern holds the value (R66). -/
abbrev RowFixes (r : LegalRow) (start len : Nat) (v : BitVec len) : Prop :=
  r.mask.extractLsb' start len = BitVec.allOnes len ∧ r.pattern.extractLsb' start len = v

/-- Every row fixes RSV at 0 (R66). -/
theorem legalRows_fix_rsv : ∀ r ∈ legalRows, RowFixes r 13 19 0 := by decide

/-- Every row fixes the opcode (R66). -/
theorem legalRows_fix_opcode : ∀ r ∈ legalRows, RowFixes r 0 8 (opcField r.pattern) := by decide

/-- Every row fixes at 0 the fields that its opcode does not use (R65, R66). -/
theorem legalRows_fix_unused : ∀ r ∈ legalRows,
    (opcField r.pattern ∈ [0x01#8, 0x02#8, 0x20#8, 0x21#8, 0x22#8, 0x23#8, 0x24#8, 0x31#8] ∧
      RowFixes r 8 2 0 ∧ RowFixes r 10 2 0 ∧ RowFixes r 12 1 0) ∨
    (opcField r.pattern ∈ [0x10#8, 0x11#8, 0x12#8, 0x13#8, 0x14#8, 0x17#8] ∧
      RowFixes r 10 2 0 ∧ RowFixes r 12 1 0) ∨
    (opcField r.pattern ∈ [0x15#8, 0x16#8] ∧ RowFixes r 12 1 0) ∨
    (opcField r.pattern = 0x30#8 ∧ RowFixes r 8 2 0 ∧ RowFixes r 10 2 0) := by decide

/-- No two rows have one opcode (R66). -/
theorem legalRows_opcodes_distinct :
    legalRows.Pairwise fun r r' => opcField r.pattern ≠ opcField r'.pattern := by decide

section
variable {w : Word} {r : LegalRow} (hmatch : w &&& r.mask = r.pattern)
include hmatch

/-- A word that matches a row holds what the row fixes (R66). -/
theorem field_of_match {start len : Nat} {v : BitVec len} (hfix : RowFixes r start len v) :
    w.extractLsb' start len = v := by
  obtain ⟨hmask, hpattern⟩ := hfix
  rw [← hpattern, ← hmatch, BitVec.extractLsb'_and, hmask, BitVec.and_allOnes]

/-- A word that matches a row has the row's opcode (R66). -/
theorem opcField_of_match (hr : r ∈ legalRows) : opcField w = opcField r.pattern :=
  field_of_match hmatch (legalRows_fix_opcode r hr)

/-- A word that matches a row is legal by its fields (R66). -/
theorem fieldsLegal_of_match (hr : r ∈ legalRows) : FieldsLegal w := by
  have hca (h : RowFixes r 8 2 0) : caField w = 0 := congrArg BitVec.toFin (field_of_match hmatch h)
  have hcb (h : RowFixes r 10 2 0) : cbField w = 0 := congrArg BitVec.toFin (field_of_match hmatch h)
  have hm (h : RowFixes r 12 1 0) : modeField w = .pmem := if_pos (field_of_match hmatch h)
  refine ⟨field_of_match hmatch (legalRows_fix_rsv r hr), ?_⟩
  rw [opcField_of_match hmatch hr]
  exact (legalRows_fix_unused r hr).imp (fun ⟨hopc, a, b, m⟩ => ⟨hopc, hca a, hcb b, hm m⟩) <|
    .imp (fun ⟨hopc, b, m⟩ => ⟨hopc, hcb b, hm m⟩) <|
    .imp (fun ⟨hopc, m⟩ => ⟨hopc, hm m⟩) fun ⟨hopc, a, b⟩ => ⟨hopc, hca a, hcb b⟩

end

/-- A word that is legal by its fields decodes (R65, R66). -/
theorem decode_of_fieldsLegal {w : Word} (h : FieldsLegal w) : ∃ i, decode w = .ok i := by
  obtain ⟨hrsv, ⟨hopc, hca, hcb, hm⟩ | ⟨hopc, hcb, hm⟩ | ⟨hopc, hm⟩ | ⟨hopc, hca, hcb⟩⟩ := h
  · simp only [List.mem_cons, List.not_mem_nil, or_false] at hopc
    rcases hopc with h | h | h | h | h | h | h | h <;>
      simp [decode, hrsv, h, decodeNoField_eq_ok, hca, hcb, hm]
  · simp only [List.mem_cons, List.not_mem_nil, or_false] at hopc
    rcases hopc with h | h | h | h | h | h <;> simp [decode, hrsv, h, decodeCa_eq_ok, hcb, hm]
  · simp only [List.mem_cons, List.not_mem_nil, or_false] at hopc
    rcases hopc with h | h <;> simp [decode, hrsv, h, decodeCaCb_eq_ok, hm]
  · simp [decode, hrsv, hopc, decodeMode_eq_ok, hca, hcb]

/-- A legal word is legal by its fields (R66). -/
theorem fieldsLegal_of_wordLegal {w : Word} (h : wordLegal w = true) : FieldsLegal w := by
  obtain ⟨r, hr, hmatch⟩ := (wordLegal_iff w).1 h
  exact fieldsLegal_of_match hmatch hr

/-- A word that decodes is legal: it is its command's word (R65, R66). -/
theorem wordLegal_of_decode {w : Word} {i : Instr} (h : decode w = .ok i) : wordLegal w = true :=
  encode_of_decode h ▸ wordLegal_encode i

/-- At most one row matches a word: two would have one opcode (R66). -/
theorem length_matching_rows_le_one (w : Word) :
    (legalRows.filter fun r => w &&& r.mask == r.pattern).length ≤ 1 := by
  have hmem {r : LegalRow} (hr : r ∈ legalRows.filter fun r => w &&& r.mask == r.pattern) :
      opcField w = opcField r.pattern := by
    simp only [List.mem_filter, beq_iff_eq] at hr
    exact opcField_of_match hr.2 hr.1
  have hdistinct := legalRows_opcodes_distinct.filter fun r => w &&& r.mask == r.pattern
  generalize legalRows.filter _ = matching at hmem hdistinct
  match matching with
  | [] | [_] => simp
  | r :: r' :: _ =>
    have hne := List.rel_of_pairwise_cons hdistinct List.mem_cons_self
    exact absurd ((hmem (by simp)).symm.trans (hmem (by simp))) hne

/-- Settles O3: table to fields to decoder and, by the encoder, back to the table. -/
theorem legalWordsAreThoseThatDecode : Obligations.LegalWordsAreThoseThatDecode := by
  intro w
  refine ⟨⟨fieldsLegal_of_wordLegal, fun h => ?_⟩, ⟨fun h => ?_, fun ⟨_, h⟩ => wordLegal_of_decode h⟩,
    length_matching_rows_le_one w⟩
  · obtain ⟨i, hi⟩ := decode_of_fieldsLegal h
    exact wordLegal_of_decode hi
  · exact decode_of_fieldsLegal (fieldsLegal_of_wordLegal h)

/-- Settles O4: the word is accepted like any other, and the core turns on a decoder that refuses it. -/
theorem illegalWordOnlyReportsIllegalCommand : Obligations.IllegalWordOnlyReportsIllegalCommand := by
  intro s w hillegal hidle hrel
  refine ⟨(s.accept w).hostNext, ?accept, rfl, rfl, ?turn⟩
  case accept => exact (cmdWriteIsAcceptedOrStalls s w).1 hidle hrel
  case turn =>
    cases hdecode : decode w with
    | ok i => simp [wordLegal_of_decode hdecode] at hillegal
    | error e => exact ⟨_, coreTurn_of_error hdecode⟩

end Sys2Proof.Machine
end

section
/-! The host's lines (30_encoding.md section 5, R69 to R71): waiting and branching, and the steps of a
command line's expansion. -/

namespace Sys2Proof.Machine

/-- A jump to a label that the program holds goes to the first place that holds it (R70). -/
theorem hostJump_of_first_label {s : State} {name i : Nat} (hi : s.host.program[i]? = some (.label name))
    (hfirst : ∀ j, j < i → s.host.program[j]? ≠ some (.label name)) :
    hostJump name s = .next { s with host := { s.host with pc := i } } := by
  obtain ⟨hlt, hget⟩ := List.getElem?_eq_some_iff.1 hi
  have hfind : s.host.program.findIdx? (fun a => a == .label name) = some i := by
    refine List.findIdx?_eq_some_iff_getElem.2 ⟨hlt, by simp [hget], fun j hj => ?_⟩
    have hne := hfirst j hj
    rw [List.getElem?_eq_getElem (hj.trans hlt)] at hne
    simpa using hne
  simp [hostJump, hfind]

/-- Settles O51. -/
theorem hostWaitsAndBranches : Obligations.HostWaitsAndBranches := by
  intro s name i
  refine ⟨fun hb => ?busy, fun hidle => ?idle, fun hi hfirst => ?label⟩
  case busy => simp [hostDo, hostWait, hb]
  case idle => simp [hostDo, hostWait, hidle]
  case label =>
    have hjump := hostJump_of_first_label hi hfirst
    exact ⟨fun hok => by simp [hostDo, hok, hjump, State.hostNext],
      fun hnok => by simp [hostDo, hnok, hjump, State.hostNext]⟩

/-- An idle block with reset released and no turn scheduled, whose host has the given actions left (R70,
logs 2 and 11). -/
structure State.HostAt (s : State) (actions : List HostAction) : Prop where
  idle : s.busy = false
  released : s.resetHeld = false
  unscheduled : s.turns = []
  left : s.host.program.drop s.host.pc = actions

/-- The state with the host `n` actions further. -/
def State.skip (s : State) (n : Nat) : State := { s with host := { s.host with pc := s.host.pc + n } }

/-- Such a state's step is its host's first action (R70). -/
theorem State.HostAt.step_eq {s : State} {a : HostAction} {rest : List HostAction}
    (h : s.HostAt (a :: rest)) : step s = hostDo a s := by
  have hget : s.host.program[s.host.pc]? = some a := by
    rw [← List.head?_drop, h.left, List.head?_cons]
  rw [step_of_idle h.unscheduled h.idle]
  simp only [hostTurn, hget]

/-- The actions left after some are done. -/
theorem State.HostAt.left_append {s : State} {acts rest : List HostAction} (h : s.HostAt (acts ++ rest)) :
    s.host.program.drop (s.host.pc + acts.length) = rest := by
  rw [← List.drop_drop, h.left, List.drop_left]

/-- A run whose first step goes on is the run of the rest. -/
theorem run_of_step_next {M : Host.Core} {s t : M.State} (h : M.step s = .next t) (k : Nat) :
    M.run (k + 1) s = M.run k t := by
  simp only [Host.Core.run, h]

/-- A run of one step is the step. -/
theorem run_one (M : Host.Core) (s : M.State) : M.run 1 s = M.step s := by
  cases h : M.step s <;> simp only [Host.Core.run, h]

/-- The write of an operand the line names, and the absence of one it does not: the host is past it, the
operand registers hold what it left there, and nothing else has changed (R71). -/
theorem State.HostAt.run_writeOperand {s : State} {reg : HostReg} {v : Option Int} {a₀ a₁ : Word}
    {rest : List HostAction} (h : s.HostAt (writeOperand reg v ++ rest))
    (hnamed : ∀ x, v = some x → s.writeReg (operandWord x) (some reg) = some (s.withArgs a₀ a₁))
    (hnone : v = none → s = s.withArgs a₀ a₁) (k : Nat) :
    Host.Core.run core ((writeOperand reg v).length + k) s =
      Host.Core.run core k ((s.withArgs a₀ a₁).skip (writeOperand reg v).length) ∧
    ((s.withArgs a₀ a₁).skip (writeOperand reg v).length).HostAt rest := by
  refine ⟨?_, h.idle, h.released, h.unscheduled, h.left_append⟩
  cases v with
  | none =>
    rw [← hnone rfl]
    simp [writeOperand, State.skip]
  | some x =>
    rw [Nat.add_comm]
    refine run_of_step_next (M := core) (h.step_eq.trans ?_) k
    rw [hostDo_wr, hnamed x rfl]
    rfl

/-- The CMD write of a command line and the turn after it: the word is accepted and the core runs its
command (R25, R71). -/
theorem State.HostAt.run_command {s : State} {i : Instr} {rest : List HostAction}
    (h : s.HostAt (.wr .cmd (encode i) :: rest)) :
    Host.Core.run core 2 s = exec i ((s.skip 1).accept (encode i)) := by
  have haccept : step s = .next ((s.skip 1).accept (encode i)) :=
    h.step_eq.trans ((cmdWriteIsAcceptedOrStalls s (encode i)).1 h.idle h.released)
  have hturns : ((s.skip 1).accept (encode i)).turns = [] := h.unscheduled
  have hturn : step ((s.skip 1).accept (encode i)) = exec i ((s.skip 1).accept (encode i)) :=
    (step_of_busy hturns rfl).trans (coreTurn_of_ok (decode_encode i))
  exact (run_of_step_next (M := core) haccept 1).trans ((run_one core _).trans hturn)

/-- Settles O53: the two operand writes, then the CMD write and the core's turn. -/
theorem commandLineRunsItsCommand : Obligations.CommandLineRunsItsCommand := by
  intro s c before after _ hidle hrel hturns hprogram hpc
  have hstart : s.HostAt (writeOperand .arg0 c.v0 ++ (writeOperand .arg1 c.v1 ++
      (.wr .cmd (encode c.instr) :: .wait :: after))) :=
    ⟨hidle, hrel, hturns, by simp [hprogram, hpc, expandCommand]⟩
  obtain ⟨hrun₀, hat₀⟩ := hstart.run_writeOperand (a₀ := (c.v0.map operandWord).getD s.arg0)
    (a₁ := s.arg1) (fun x hx => by simp [State.writeReg, hrel, hx, State.withArgs])
    (fun hx => by simp [hx, State.withArgs]) ((writeOperand .arg1 c.v1).length + 2)
  obtain ⟨hrun₁, hat₁⟩ := hat₀.run_writeOperand (a₀ := (c.v0.map operandWord).getD s.arg0)
    (a₁ := (c.v1.map operandWord).getD s.arg1)
    (fun x hx => by simp [State.writeReg, State.skip, hrel, hx, State.withArgs])
    (fun hx => by simp [hx, State.withArgs, State.skip]) 2
  have hlen : (expandCommand c).length =
      (writeOperand .arg0 c.v0).length + ((writeOperand .arg1 c.v1).length + 2) := by
    simp [expandCommand]
  rw [hlen, hrun₀, hrun₁, hat₁.run_command]
  have hat : s.host.pc + (writeOperand .arg0 c.v0).length + (writeOperand .arg1 c.v1).length + 1 =
      before.length + ((writeOperand .arg0 c.v0).length + ((writeOperand .arg1 c.v1).length + 2)) - 1 := by
    omega
  simp only [State.skip, State.withArgs, hat]
  rfl

end Sys2Proof.Machine
end

section
/-! The AGU (40_agu.md) and the bit addresses of every producer (R87): a flat index is split into byte and
bit offset, and joined again, by arithmetic. -/

namespace Sys2Proof.Machine

/-! ### Bit addresses and bits -/

@[simp] theorem toNat_byteOffset (flat : Word) : (byteOffset flat).toNat = flat.toNat / 8 := by
  simp [byteOffset, Nat.shiftRight_eq_div_pow]

@[simp] theorem toNat_bitOffset (flat : Word) : (bitOffset flat).toNat = flat.toNat % 8 := by
  simpa [bitOffset] using Nat.and_two_pow_sub_one_eq_mod flat.toNat 3

theorem byteOffset_eq_ofNat (flat : Word) : byteOffset flat = BitVec.ofNat 32 (flat.toNat / 8) := by
  rw [← toNat_byteOffset, BitVec.ofNat_toNat, BitVec.setWidth_eq]

theorem bitOffset_eq_ofNat (flat : Word) : bitOffset flat = BitVec.ofNat 32 (flat.toNat % 8) := by
  rw [← toNat_bitOffset, BitVec.ofNat_toNat, BitVec.setWidth_eq]

/-- `mask(n)` by arithmetic (R18). -/
theorem maskWord_eq_ofNat (n : Nat) : maskWord n = BitVec.ofNat 32 (2 ^ n - 1) := by
  have hshift : 1#32 <<< n = BitVec.ofNat 32 (2 ^ n) :=
    BitVec.eq_of_toNat_eq (by simp [Nat.shiftLeft_eq])
  rw [maskWord, hshift, ← BitVec.ofNat_sub_ofNat_of_le _ _ (by decide) Nat.one_le_two_pow]

/-- The machine's stream bit is that of R15 by arithmetic. -/
theorem bitAt_eq_streamBit (b : Byte) (o : Nat) : bitAt b o = streamBit b o := by
  have hlow : ((b >>> (7 - o)) &&& 1#8).toNat = b.toNat / 2 ^ (7 - o) % 2 := by
    simp [Nat.shiftRight_eq_div_pow, Nat.and_one_is_mod]
  rw [bitAt, streamBit, ← hlow, beq_eq_decide]
  exact decide_eq_decide.2 BitVec.toNat_eq

/-- Bit offset 0 is the most significant bit (R15). -/
theorem streamBit_zero (b : Byte) : streamBit b 0 = b.msb := by
  have := b.isLt
  rw [streamBit, BitVec.msb_eq_decide, decide_eq_decide]
  omega

/-! ### ADDR and MASK (R86, R88) -/

theorem exec_addr_of_lt {s : State} (h : s.latch.a0.toNat / 8 < s.latch.a1.toNat) :
    exec .addr s = finish (s.setRes (byteOffset s.latch.a0) (bitOffset s.latch.a0)) :=
  if_neg (by simpa using h)

theorem exec_addr_of_ge {s : State} (h : s.latch.a1.toNat ≤ s.latch.a0.toNat / 8) :
    exec .addr s = raise .outOfRange s :=
  if_pos (by simpa using h)

theorem exec_mask_of_le {s : State} (h : s.latch.a0.toNat ≤ 8) :
    exec .mask s = finish (s.setRes0 (maskWord s.latch.a0.toNat)) :=
  if_neg (Nat.not_lt.2 h)

theorem exec_mask_of_gt {s : State} (h : 8 < s.latch.a0.toNat) :
    exec .mask s = raise .assertViolation s :=
  if_pos h

/-- Settles O5: the machine's shift and mask are the quotient and the remainder by 8. -/
theorem addrGivesByteAndBitOffset : Obligations.AddrGivesByteAndBitOffset := by
  refine ⟨by decide, fun s => ⟨fun hin => ?_, exec_addr_of_ge⟩⟩
  rw [exec_addr_of_lt hin, byteOffset_eq_ofNat, bitOffset_eq_ofNat]
  rfl

/-- Settles O6: the machine's mask is 2^n - 1; the failing exit records its fault event (log 10). -/
theorem maskGivesLowOrderOnes : Obligations.MaskGivesLowOrderOnes := by
  refine ⟨by decide, fun s => ⟨fun hle => ?_, fun hgt => ⟨_, exec_mask_of_gt hgt⟩⟩⟩
  rw [exec_mask_of_le hle, maskWord_eq_ofNat]
  rfl

/-- Settles O8: each exit of ADDR and MASK is chosen by the latched operands and answers a function of
them. -/
theorem aguCommandsArePure : Obligations.AguCommandsArePure := by
  intro i s₁ s₂ hi h0 h1
  have hops : ∀ s, s = s₁ ∨ s = s₂ → s.latch.a0 = s₁.latch.a0 ∧ s.latch.a1 = s₁.latch.a1 := by
    rintro s (rfl | rfl) <;> simp [h0, h1]
  obtain rfl | rfl := hi
  case inl =>
    obtain hin | hout := Nat.lt_or_ge (s₁.latch.a0.toNat / 8) s₁.latch.a1.toNat
    · refine ⟨.ok, byteOffset s₁.latch.a0, bitOffset s₁.latch.a0, fun s hs => ⟨s.events, ?_⟩⟩
      obtain ⟨e0, e1⟩ := hops s hs
      rw [exec_addr_of_lt (by rwa [e0, e1]), e0]
      rfl
    · refine ⟨.outOfRange, 0, 0, fun s hs => ⟨s.events, ?_⟩⟩
      obtain ⟨e0, e1⟩ := hops s hs
      exact exec_addr_of_ge (by rwa [e0, e1])
  case inr =>
    obtain hle | hgt := le_or_gt s₁.latch.a0.toNat 8
    · refine ⟨.ok, maskWord s₁.latch.a0.toNat, 0, fun s hs => ⟨s.events, ?_⟩⟩
      obtain ⟨e0, -⟩ := hops s hs
      rw [exec_mask_of_le (by rwa [e0]), e0]
      rfl
    · refine ⟨.assertViolation, 0, 0, fun s hs => ⟨s.events.record .assertViolation, ?_⟩⟩
      obtain ⟨e0, -⟩ := hops s hs
      exact exec_mask_of_gt (by rwa [e0])

/-! ### Every address producer (R87) -/

/-- The address a command answers: ADDR, CPOS and CADV raise a failure or finish with the two offsets of
one flat index in the results. -/
theorem address_of_ok {P : Prop} [Decidable P] {flat : Word} {c : Code} {s u t : State} (hfail : c ≠ .ok)
    (h0 : u.res0 = byteOffset flat) (h1 : u.res1 = bitOffset flat)
    (h : (if P then raise c s else finish u) = .next t) (hok : t.code = .ok) :
    t.res1.toNat < 8 ∧ t.res0.toNat * 8 + t.res1.toNat = flat.toNat := by
  split at h
  case isTrue =>
    obtain rfl := (raise_eq_next c s t).1 h
    exact absurd hok hfail
  case isFalse =>
    obtain rfl := (finish_eq_next u t).1 h
    rw [State.complete_res0, State.complete_res1, h0, h1, toNat_byteOffset, toNat_bitOffset]
    omega

/-- A read from a ready window takes the bit at its cursor's byte and bit offset (R112). -/
theorem readBit_of_readyWindow {cfg : Params} {epoch : Nat} {st w : Stream}
    (h : readyWindow cfg epoch st = some w) :
    readBit cfg epoch st =
      some (streamBit (bufRead epoch w.bbs.buf (w.bbs.flat.toNat / 8)) (w.bbs.flat.toNat % 8),
        { w with bbs := { w.bbs with flat := w.bbs.flat + 1#32 } }) := by
  simp only [readBit, h, bitAt_eq_streamBit, Nat.shiftRight_eq_div_pow,
    Nat.and_two_pow_sub_one_eq_mod _ 3]

/-- Settles O7: one argument for ADDR, CPOS and CADV, and the cursor's own offsets for a bit read. -/
theorem bitAddressesMatchTheirFlatIndex : Obligations.BitAddressesMatchTheirFlatIndex := by
  refine ⟨fun s t h => ?addr, fun ca i s t hi h => ?slot, fun cfg epoch st w hw => ?bit, streamBit_zero⟩
  case addr => exact address_of_ok (by decide) rfl rfl h
  case slot => obtain rfl | rfl := hi <;> exact address_of_ok (by decide) rfl rfl h
  case bit =>
    refine ⟨w.bbs.flat.toNat / 8, w.bbs.flat.toNat % 8, by omega, by omega, ?_⟩
    rw [readBit_of_readyWindow hw]
    rfl

end Sys2Proof.Machine
end

section
/-! The CSQ (41_cursor.md): the word of each command that names slots, each exit of each command, and what
CADV does again and again (R90 to R107). -/

namespace Sys2Proof.Machine

/-! ### Words -/

/-- The word of a command that names the slots CA and CB (R61). -/
theorem packWord_ca_cb (ca cb : SlotNo) (opc : Nat) :
    packWord .pmem cb ca opc =
      BitVec.ofNat 32 opc ||| BitVec.ofNat 32 cb.val <<< 10 ||| BitVec.ofNat 32 ca.val <<< 8 := by
  have hcb : BitVec.ofNat 32 (cb.val <<< 10) = BitVec.ofNat 32 cb.val <<< 10 := by revert cb; decide
  have hca : BitVec.ofNat 32 (ca.val <<< 8) = BitVec.ofNat 32 ca.val <<< 8 := by revert ca; decide
  simp only [packWord, modeBit, BitVec.ofNat_or, hcb, hca, Nat.zero_shiftLeft, BitVec.zero_or]
  ac_rfl

/-- The word of a command that names the slot CA only (R61). -/
theorem packWord_ca (ca : SlotNo) (opc : Nat) :
    packWord .pmem 0 ca opc = BitVec.ofNat 32 opc ||| BitVec.ofNat 32 ca.val <<< 8 := by
  simpa using packWord_ca_cb ca 0 opc

/-! ### Creating and reading a cursor -/

/-- Settles O9. -/
theorem cnewCreatesACursor : Obligations.CnewCreatesACursor := by
  refine fun ca => ⟨packWord_ca ca 0x10, fun s => ⟨fun hle => ?ok, fun hgt => ?invalidRange⟩⟩
  case ok => exact if_neg (Nat.not_lt.2 hle)
  case invalidRange => exact if_pos hgt

/-- Settles O10: the machine's shift and mask are the quotient and the remainder by 8. -/
theorem cposGivesTheCurrentAddress : Obligations.CposGivesTheCurrentAddress := by
  refine fun ca => ⟨packWord_ca ca 0x11, fun s => ⟨fun hlt => ?ok, fun hge => ?outOfRange⟩⟩
  case ok =>
    rw [← byteOffset_eq_ofNat, ← bitOffset_eq_ofNat]
    exact if_neg (Nat.not_le.2 hlt)
  case outOfRange => exact if_pos hge

/-- Settles O12: within the capacity the difference neither borrows nor overflows. -/
theorem cremGivesTheRemainingBits : Obligations.CremGivesTheRemainingBits := by
  refine fun ca => ⟨packWord_ca ca 0x13, fun s hle => ⟨_, ?_, rfl⟩⟩
  rw [State.setRes0_res0, BitVec.toNat_ofNat]
  omega

/-- Settles O17. -/
theorem cgetReadsTheSlot : Obligations.CgetReadsTheSlot :=
  fun ca => ⟨packWord_ca ca 0x17, fun _ => rfl⟩

/-! ### Moving a cursor -/

/-- CADV short of the capacity (R95). -/
theorem exec_cadv_of_lt {ca : SlotNo} {s : State} (h : (s.slot ca).flat.toNat < (s.slot ca).cap.toNat) :
    exec (.cadv ca) s =
      finish ((s.setRes (byteOffset (s.slot ca).flat) (bitOffset (s.slot ca).flat)).setSlot ca
        { flat := (s.slot ca).flat + 1#32, cap := (s.slot ca).cap }) :=
  if_neg fun e => h.ne (congrArg BitVec.toNat e)

/-- CADV at the capacity (R95). -/
theorem exec_cadv_of_eq {ca : SlotNo} {s : State} (h : (s.slot ca).flat = (s.slot ca).cap) :
    exec (.cadv ca) s = raise .exhausted s :=
  if_pos h

/-- An index below another word has a successor without wrap. -/
theorem toNat_add_one_of_lt {flat cap : Word} (h : flat.toNat < cap.toNat) :
    (flat + 1#32).toNat = flat.toNat + 1 := by
  bv_omega

/-- Settles O11. -/
theorem cadvAdvancesByOneBit : Obligations.CadvAdvancesByOneBit := by
  refine fun ca => ⟨packWord_ca ca 0x12, fun s => ⟨fun hlt => ?ok, exec_cadv_of_eq⟩⟩
  have hnext := toNat_add_one_of_lt hlt
  refine ⟨_, hnext, by omega, ?_⟩
  rw [exec_cadv_of_lt hlt, byteOffset_eq_ofNat, bitOffset_eq_ofNat]
  rfl

/-- CSHIFT's amount is the two's complement value of ARG0 as latched (R16, R100). -/
theorem signedOperand0_eq_toInt (s : State) : s.signedOperand0 = s.latch.a0.toInt := by
  rw [State.signedOperand0, sext32, BitVec.toInt_eq_msb_cond, BitVec.msb_eq_getLsbD_last]
  rfl

/-- Settles O13: the machine's target is the exact signed sum, and one within the capacity is its 32-bit
value. -/
theorem cshiftMovesBySignedAmount : Obligations.CshiftMovesBySignedAmount := by
  refine fun ca => ⟨packWord_ca ca 0x14, fun s t ht => ?_⟩
  rw [← signedOperand0_eq_toInt] at ht
  subst ht
  refine ⟨fun hin => ⟨_, ?exact, if_neg (by omega)⟩, fun hout => if_pos hout⟩
  have := (s.slot ca).cap.isLt
  rw [BitVec.toNat_ofInt, Int.emod_eq_of_lt] <;> omega

/-! ### Comparing cursors -/

section
variable {a b : Cursor}

theorem cursorOrder_of_eq (h : a.flat = b.flat) : cursorOrder a b = 0#32 := if_pos h

theorem cursorOrder_of_gt (h : b.flat.toNat < a.flat.toNat) : cursorOrder a b = 1#32 := by
  rw [cursorOrder, if_neg fun e => h.ne' (congrArg BitVec.toNat e), if_pos h]

theorem cursorOrder_of_lt (h : a.flat.toNat < b.flat.toNat) : cursorOrder a b = 0xFFFFFFFF#32 := by
  rw [cursorOrder, if_neg fun e => h.ne (congrArg BitVec.toNat e), if_neg (Nat.lt_asymm h)]

/-- "0 or -1" is the order of the flat indices (R104). -/
theorem cursorOrder_le_iff :
    cursorOrder a b = 0#32 ∨ cursorOrder a b = 0xFFFFFFFF#32 ↔ a.flat.toNat ≤ b.flat.toNat := by
  obtain hlt | heq | hgt := Nat.lt_trichotomy a.flat.toNat b.flat.toNat
  · simp [cursorOrder_of_lt hlt, hlt.le]
  · simp [cursorOrder_of_eq (BitVec.eq_of_toNat_eq heq), heq]
  · simp [cursorOrder_of_gt hgt, hgt]

end

/-- Settles O14. -/
theorem ccmpComparesFlatIndices : Obligations.CcmpComparesFlatIndices := by
  refine fun ca cb => ⟨packWord_ca_cb ca cb 0x15, fun s => ⟨_, _, rfl,
    fun hflat => cursorOrder_of_eq (BitVec.eq_of_toNat_eq hflat), cursorOrder_of_gt, cursorOrder_of_lt,
    fun hcap => ?same, fun hcap => ?different⟩⟩
  case same => simp [bitWord, BitVec.eq_of_toNat_eq hcap]
  case different => simp [bitWord, BitVec.toNat_eq.not.2 hcap]

/-- Settles O15: the relation is the order of the flat indices as natural numbers. -/
theorem ccmpIsATotalOrder : Obligations.CcmpIsATotalOrder := by
  refine ⟨fun s a b => cursorOrder (s.slot a) (s.slot b), fun s a b => ⟨_, rfl, rfl, rfl⟩,
    fun s le hle => ?_⟩
  have hflat : ∀ a b, le a b ↔ (s.slot a).flat.toNat ≤ (s.slot b).flat.toNat :=
    fun a b => (hle a b).trans cursorOrder_le_iff
  simp only [hflat]
  exact ⟨fun _ => le_rfl, fun _ _ => le_total _ _,
    fun _ _ hab hba => BitVec.eq_of_toNat_eq (le_antisymm hab hba),
    fun _ _ _ => le_trans, fun _ _ => cursorOrder_of_eq⟩

/-- The difference of two words, narrowed, and its borrow: together they are the exact difference (R105). -/
theorem difference_and_borrow {a b v₀ v₁ : Word} (h0 : v₀ = BitVec.ofInt 32 ((a.toNat : Int) - b.toNat))
    (h1 : v₁ = bitWord (decide ((a.toNat : Int) - b.toNat < 0))) :
    (v₀.toNat : Int) = ((a.toNat : Int) - b.toNat) % 2 ^ 32 ∧
    (v₁ = if a.toNat < b.toNat then 1#32 else 0#32) ∧
    (a.toNat : Int) - b.toNat = v₀.toNat - v₁.toNat * 2 ^ 32 := by
  have ha := a.isLt
  have hb := b.isLt
  have hmod : (v₀.toNat : Int) = ((a.toNat : Int) - b.toNat) % 2 ^ 32 := by
    rw [h0, BitVec.toNat_ofInt]
    omega
  have hborrow : v₁ = if a.toNat < b.toNat then 1#32 else 0#32 := by
    simp [h1, bitWord]
  refine ⟨hmod, hborrow, ?_⟩
  rw [hmod, hborrow]
  split <;> rw [BitVec.toNat_ofNat] <;> omega

/-- Settles O16. -/
theorem csubGivesDifferenceAndBorrow : Obligations.CsubGivesDifferenceAndBorrow :=
  fun ca cb => ⟨packWord_ca_cb ca cb 0x16, fun _ => ⟨_, _, rfl, difference_and_borrow rfl rfl⟩⟩

/-! ### A run of CADV (R96) -/

/-- One CADV moves a cursor within its capacity to the next index, up to the capacity (R95). -/
theorem exec_cadv_slot (ca : SlotNo) {s : State}
    (hle : (s.slot ca).flat.toNat ≤ (s.slot ca).cap.toNat) :
    ∃ t, exec (.cadv ca) s = .next t ∧ (t.slot ca).cap = (s.slot ca).cap ∧
      (t.slot ca).flat.toNat = min ((s.slot ca).flat.toNat + 1) (s.slot ca).cap.toNat := by
  obtain hlt | heq := Nat.lt_or_eq_of_le hle
  case inl =>
    refine ⟨_, exec_cadv_of_lt hlt, ?_⟩
    rw [State.slot_complete, State.slot_setSlot, Slots.get_set_self, toNat_add_one_of_lt hlt]
    exact ⟨rfl, by omega⟩
  case inr =>
    refine ⟨_, exec_cadv_of_eq (BitVec.eq_of_toNat_eq heq), rfl, ?_⟩
    rw [State.slot_complete]
    omega

/-- `j` CADV move it by `j`, up to the capacity. -/
theorem execTimes_cadv_slot (ca : SlotNo) (j : Nat) {s : State}
    (hle : (s.slot ca).flat.toNat ≤ (s.slot ca).cap.toNat) :
    ∃ u, execTimes (.cadv ca) j s = .next u ∧ (u.slot ca).cap = (s.slot ca).cap ∧
      (u.slot ca).flat.toNat = min ((s.slot ca).flat.toNat + j) (s.slot ca).cap.toNat := by
  induction j generalizing s with
  | zero => exact ⟨s, rfl, rfl, by omega⟩
  | succ j ih =>
    obtain ⟨t, hexec, htcap, htflat⟩ := exec_cadv_slot ca hle
    obtain ⟨u, hrun, hucap, huflat⟩ := ih (s := t) (by rw [htcap, htflat]; omega)
    refine ⟨u, by rwa [execTimes, hexec], hucap.trans htcap, ?_⟩
    rw [huflat, htcap, htflat]
    omega

/-- Settles O19: after `j` CADV the cursor stands at `flat + j` or at its capacity, which decides the
exit of the next one. -/
theorem repeatedCadvWalksTheCursor : Obligations.RepeatedCadvWalksTheCursor := by
  intro s ca j hle
  obtain ⟨u, hrun, hcap, hflat⟩ := execTimes_cadv_slot ca j hle
  rw [← hcap] at hflat ⊢
  obtain hin | hend := Nat.lt_or_ge ((s.slot ca).flat.toNat + j) (u.slot ca).cap.toNat
  case inl =>
    have hat : (u.slot ca).flat.toNat = (s.slot ca).flat.toNat + j := by omega
    refine ⟨u, _, hrun, exec_cadv_of_lt (by omega), fun _ => ?_, by omega⟩
    rw [← hat]
    exact ⟨rfl, toNat_byteOffset _, toNat_bitOffset _⟩
  case inr =>
    have hat : (u.slot ca).flat = (u.slot ca).cap := BitVec.eq_of_toNat_eq (by omega)
    exact ⟨u, _, hrun, exec_cadv_of_eq hat, by omega, fun _ => ⟨rfl, rfl, rfl, rfl⟩⟩

end Sys2Proof.Machine
end

section
/-! Slots and their writers (41_cursor.md, R97, R99): three commands write a slot, the others keep all four;
CSQ commands commute with replacing the BBS state, BBS commands with replacing the slots. -/

namespace Sys2Proof.Machine

/-! ### Who writes a slot (R99) -/

/-- The outcome is no next state with other slots. -/
def KeepsSlots (s : State) (o : Host.Outcome State Fault Refusal) : Prop :=
  ∀ t, o = .next t → t.slots = s.slots

/-- Completing keeps the slots when what was written before did. -/
theorem keepsSlots_raise {s u : State} (c : Code) (h : u.slots = s.slots) : KeepsSlots s (raise c u) := by
  intro t ht
  obtain rfl := (raise_eq_next c u t).1 ht
  exact h

theorem keepsSlots_ite {P : Prop} [Decidable P] {s : State} {a b : Host.Outcome State Fault Refusal}
    (ha : KeepsSlots s a) (hb : KeepsSlots s b) : KeepsSlots s (if P then a else b) := by
  split
  · exact ha
  · exact hb

theorem keepsSlots_execBrdbit (s : State) : KeepsSlots s (execBrdbit s) := by
  unfold execBrdbit
  split
  · exact keepsSlots_raise _ rfl
  · exact keepsSlots_raise .ok rfl

/-- The commands that write a slot name it in CA (R99). -/
def writtenSlot : Instr → Option SlotNo
  | .cnew ca | .cadv ca | .cshift ca => some ca
  | .addr | .mask | .cpos _ | .crem _ | .ccmp _ _ | .csub _ _ | .cget _ | .binit | .brdbit | .brdbits
  | .beos | .bget | .enc _ | .dec => none

/-- A command that writes no slot keeps them all: each of its exits does. -/
theorem keepsSlots_exec {i : Instr} (hi : writtenSlot i = none) (s : State) : KeepsSlots s (exec i s) :=
  match i, hi with
  | .addr, _ | .mask, _ | .cpos _, _ | .binit, _ =>
    keepsSlots_ite (keepsSlots_raise _ rfl) (keepsSlots_raise .ok rfl)
  | .crem _, _ | .ccmp _ _, _ | .csub _ _, _ | .cget _, _ | .beos, _ | .bget, _ => keepsSlots_raise .ok rfl
  | .brdbit, _ => keepsSlots_execBrdbit s
  | .brdbits, _ =>
    keepsSlots_ite (keepsSlots_raise _ rfl)
      (keepsSlots_ite (keepsSlots_raise .ok rfl) (keepsSlots_raise _ rfl))
  | .enc _, _ | .dec, _ =>
    keepsSlots_ite (keepsSlots_raise _ rfl) (keepsSlots_ite (fun _ h => nomatch h) (keepsSlots_raise _ rfl))

/-- A command that raises a failure or finishes with one slot written changes no other slot, and that one
only with OK. -/
theorem slot_of_write {P : Prop} [Decidable P] {s u t : State} {e : Code} {k : SlotNo} {v : Cursor}
    (h : (if P then raise e s else finish (u.setSlot k v)) = .next t) (hu : u.slots = s.slots) (c : SlotNo) :
    t.slot c = s.slot c ∨ (k = c ∧ t.code = .ok) := by
  split at h
  case isTrue =>
    obtain rfl := (raise_eq_next e s t).1 h
    exact .inl rfl
  case isFalse =>
    obtain rfl := (finish_eq_next _ t).1 h
    rw [State.slot_complete, State.slot_setSlot, Slots.get_set, hu]
    split
    case isTrue hk => exact .inr ⟨hk, rfl⟩
    case isFalse => exact .inl rfl

/-- Settles O18: a writer's argument once for all three, and every other command keeps the slots. -/
theorem onlySlotWritersChangeTheirSlot : Obligations.OnlySlotWritersChangeTheirSlot := by
  intro i s t h c
  have hkeep (hi : writtenSlot i = none) : t.slot c = s.slot c :=
    congrArg (Slots.get · c) (keepsSlots_exec hi s t h)
  cases i with
  | cnew k | cadv k | cshift k => exact (slot_of_write h rfl c).imp_right fun ⟨hk, hok⟩ => by simp [hk, hok]
  | _ => exact .inl (hkeep rfl)

/-! ### Slots and the BBS state (R97) -/

/-- The state with another BBS state. -/
def State.withBbs (s : State) (b : Bbs) : State := { s with bbs := b }

/-- The state with other slots. -/
def State.withSlots (s : State) (z : Slots) : State := { s with slots := z }

/-- A CSQ command commutes with replacing the BBS state (R97). -/
theorem exec_withBbs {i : Instr} (hi : isCursorCommand i = true) (s : State) (b : Bbs) :
    exec i (s.withBbs b) = onNext (·.withBbs b) (exec i s) :=
  match i, hi with
  | .cnew _, _ | .cpos _, _ | .cadv _, _ | .cshift _, _ => ite_onNext _ rfl rfl
  | .crem _, _ | .ccmp _ _, _ | .csub _ _, _ | .cget _, _ => rfl

theorem execBrdbit_withSlots (s : State) (z : Slots) :
    execBrdbit (s.withSlots z) = onNext (·.withSlots z) (execBrdbit s) := by
  have hread : readBit (s.withSlots z).cfg (s.withSlots z).epoch (s.withSlots z).stream =
      readBit s.cfg s.epoch s.stream := rfl
  unfold execBrdbit
  rw [hread]
  split <;> rfl

/-- A BBS command commutes with replacing the slots (R97). -/
theorem exec_withSlots {i : Instr} (hi : isBbsCommand i = true) (s : State) (z : Slots) :
    exec i (s.withSlots z) = onNext (·.withSlots z) (exec i s) :=
  match i, hi with
  | .binit, _ => ite_onNext _ rfl rfl
  | .brdbit, _ => execBrdbit_withSlots s z
  | .brdbits, _ => ite_onNext _ rfl (ite_onNext _ rfl rfl)
  | .beos, _ | .bget, _ => rfl

/-- A command that commutes with replacing a part of the state leaves that part as it is: replace it by
itself. -/
theorem frame_of_commutes {α : Type} {put : State → α → State} {get : State → α} {i : Instr} {s t : State}
    (hself : put s (get s) = s) (hget : ∀ u v, get (put u v) = v)
    (hcomm : ∀ v, exec i (put s v) = onNext (put · v) (exec i s)) (h : exec i s = .next t) :
    get t = get s ∧ ∀ v, exec i (put s v) = .next (put t v) := by
  simp only [h] at hcomm
  have ht : put t (get s) = t := by
    have hsame := hcomm (get s)
    rw [hself, h] at hsame
    exact (Host.Outcome.next.inj hsame).symm
  exact ⟨ht ▸ hget t (get s), hcomm⟩

/-- Settles O20. -/
theorem slotsAndBbsAreIndependent : Obligations.SlotsAndBbsAreIndependent := by
  refine ⟨fun i s t b hi h => ?csq, fun i s t z hi h => ?bbs⟩
  case csq =>
    exact (frame_of_commutes (get := State.bbs) rfl (fun _ _ => rfl) (exec_withBbs hi s) h).imp_right (· b)
  case bbs =>
    exact (frame_of_commutes (get := State.slots) rfl (fun _ _ => rfl) (exec_withSlots hi s) h).imp_right (· z)

end Sys2Proof.Machine
end

section
/-! The unread bits of a stream (42_bbs.md R112, R113, R125, R126): a fill from SRC neither loses nor adds a
bit, and a bit read takes the first one. -/

namespace Sys2Proof.Machine

/-! ### The bits of a byte sequence (R15) -/

@[simp] theorem bitsOf_append (xs ys : List Byte) : bitsOf (xs ++ ys) = bitsOf xs ++ bitsOf ys :=
  List.flatMap_append

@[simp] theorem length_bitsOf (xs : List Byte) : (bitsOf xs).length = 8 * xs.length := by
  simp [bitsOf, List.length_flatMap, Nat.mul_comm]

/-- Bit `k` of a byte sequence is bit `k % 8` of byte `k / 8`. -/
theorem getElem?_bitsOf (xs : List Byte) (k : Nat) :
    (bitsOf xs)[k]? =
      if k < 8 * xs.length then some (streamBit (xs.getD (k / 8) 0) (k % 8)) else none := by
  induction xs generalizing k with
  | nil => simp [bitsOf]
  | cons b xs ih =>
    have hcons : bitsOf (b :: xs) = (List.range 8).map (streamBit b) ++ bitsOf xs := rfl
    rw [hcons, List.length_cons]
    obtain hlt | hge := Nat.lt_or_ge k 8
    case inl =>
      rw [List.getElem?_append_left (by simpa using hlt), if_pos (by omega), Nat.div_eq_of_lt hlt,
        Nat.mod_eq_of_lt hlt]
      simp [hlt]
    case inr =>
      obtain ⟨k, rfl⟩ := Nat.exists_eq_add_of_le' hge
      rw [List.getElem?_append_right (by simp), Nat.add_div_right k (by decide), Nat.add_mod_right,
        List.getD_cons_succ]
      simpa [Nat.mul_add] using ih k

theorem drop_bitsOf {xs : List Byte} {k : Nat} (h : k < 8 * xs.length) :
    (bitsOf xs).drop k = streamBit (xs.getD (k / 8) 0) (k % 8) :: (bitsOf xs).drop (k + 1) := by
  have hk := getElem?_bitsOf xs k
  rw [if_pos h, List.getElem?_eq_getElem (by simpa using h), Option.some.injEq] at hk
  rw [← hk, List.drop_eq_getElem_cons]

/-! ### The window of a stream -/

@[simp] theorem length_window (epoch : Nat) (b : Bbs) : (b.window epoch).length = b.fill := by
  simp [Bbs.window]

/-- Up to and at the window's end the unread bits are those of the window and SRC from the cursor on. -/
theorem unread_of_le_end {epoch : Nat} {st : Stream} (h : st.bbs.flat.toNat ≤ st.bbs.fill * 8) :
    st.unread epoch = (bitsOf (st.bbs.window epoch ++ st.src)).drop st.bbs.flat.toNat := by
  unfold Stream.unread
  split
  case isTrue => rfl
  case isFalse hend =>
    have hflat : st.bbs.flat.toNat = 8 * st.bbs.fill := by omega
    rw [hflat, Nat.mul_mod_right, bitsOf_append, List.drop_left' (by simp), List.drop_zero]

/-- A cursor inside the window has a bit of BUF before it, and the bits after it are those from the next
index on (R112). -/
theorem unread_of_inWindow {epoch : Nat} {st : Stream} (hin : st.bbs.flat.toNat < st.bbs.fill * 8)
    (hfill : st.bbs.fill ≤ 2 ^ 28) :
    st.unread epoch =
      streamBit (bufRead epoch st.bbs.buf (st.bbs.flat.toNat / 8)) (st.bbs.flat.toNat % 8) ::
        Stream.unread epoch { st with bbs := { st.bbs with flat := st.bbs.flat + 1#32 } } := by
  have hnext : (st.bbs.flat + 1#32).toNat = st.bbs.flat.toNat + 1 := by bv_omega
  have hbyte : st.bbs.flat.toNat / 8 < st.bbs.fill := by omega
  have hread : (st.bbs.window epoch ++ st.src).getD (st.bbs.flat.toNat / 8) 0 =
      bufRead epoch st.bbs.buf (st.bbs.flat.toNat / 8) := by
    rw [List.getD_append _ _ _ _ (by simpa using hbyte)]
    simp [Bbs.window, hbyte]
  rw [unread_of_le_end hin.le, unread_of_le_end (by simpa only [hnext] using Nat.succ_le_of_lt hin),
    drop_bitsOf (by simp; omega), hread, hnext]
  rfl

/-! ### A fill from SRC (R110, R113) -/

/-- The stream after a fill: the first `k` bytes of `S` lie at the start of BUF, the cursor stands at `v`. -/
def filled (buf : Memory) (k : Nat) (S : List Byte) (v : Word) : Stream :=
  { bbs := { buf := Memory.storeAll buf 0 (S.take k), fill := min k S.length, flat := v }
    src := S.drop k }

/-- A refill retains nothing, so it is a fill that keeps the cursor's bit offset (R126). -/
theorem slideRefill_eq_filled {cfg : Params} {epoch : Nat} {st : Stream}
    (h : st.bbs.fill * 8 ≤ st.bbs.flat.toNat) :
    slideRefill cfg epoch st =
      filled st.bbs.buf cfg.bufBytes st.src (BitVec.ofNat 32 (st.bbs.flat.toNat % 8)) :=
  slideRefill_eq h

theorem readyWindow_of_refill {cfg : Params} {epoch : Nat} {st : Stream}
    (hend : st.bbs.fill * 8 ≤ st.bbs.flat.toNat) (hsrc : st.src ≠ []) :
    readyWindow cfg epoch st =
      some (filled st.bbs.buf cfg.bufBytes st.src (BitVec.ofNat 32 (st.bbs.flat.toNat % 8))) := by
  rw [readyWindow, if_pos hend, if_neg (mt (srcEmpty_iff _).1 hsrc), slideRefill_eq_filled hend]

section
variable (buf : Memory) (k : Nat) (S : List Byte)

/-- BUF after a fill: the bytes filled, and the others as before. -/
theorem load?_fill :
    (∀ i, i < min k S.length → Memory.load? (Memory.storeAll buf 0 (S.take k)) i = S[i]?) ∧
    (∀ i, min k S.length ≤ i → Memory.load? (Memory.storeAll buf 0 (S.take k)) i = Memory.load? buf i) := by
  simp only [Memory.load?_storeAll, List.length_take]
  refine ⟨fun i hi => ?_, fun i hi => if_neg (by omega)⟩
  rw [if_pos (by omega), Nat.sub_zero, List.getElem?_take_of_lt (by omega)]

theorem bufRead_fill (epoch : Nat) {i : Nat} (h : i < min k S.length) :
    bufRead epoch (Memory.storeAll buf 0 (S.take k)) i = S.getD i 0 := by
  have hi : i < S.length := by omega
  simp [bufRead, (load?_fill buf k S).1 i h, hi]

theorem window_filled (epoch : Nat) (v : Word) : (filled buf k S v).bbs.window epoch = S.take k := by
  refine List.ext_getElem (by simp [filled]) fun i hi hi' => ?_
  have hlt : i < min k S.length := by simpa using hi'
  have hS : i < S.length := by omega
  simp [Bbs.window, filled, bufRead_fill buf k S epoch hlt, hS]

/-- After a fill the unread bits are those of `S` from the cursor on: a cursor past a short window has no
bit left, and one at the end of a full window stands at the next byte of SRC. -/
theorem unread_filled (epoch : Nat) {v : Word} (hv : v.toNat ≤ k * 8) :
    (filled buf k S v).unread epoch = (bitsOf S).drop v.toNat := by
  obtain hle | hgt := le_or_gt v.toNat (min k S.length * 8)
  case inl =>
    rw [unread_of_le_end hle, window_filled, filled, List.take_append_drop]
  case inr =>
    have hpast : ¬ v.toNat < 8 * min k S.length := by omega
    have hdrained : S.drop k = [] := List.drop_eq_nil_of_le (by omega)
    have hnone : (bitsOf S).drop v.toNat = [] :=
      List.drop_eq_nil_of_le (by rw [length_bitsOf]; omega)
    rw [hnone, Stream.unread, filled, if_neg hpast, hdrained]
    exact List.drop_nil

end

/-! ### A bit read -/

section
variable {cfg : Params} {epoch : Nat} {st : Stream} (hcfg : cfg.Legal) (hfill : st.bbs.fill ≤ cfg.bufBytes)
include hcfg hfill

/-- The window a read works in has its cursor inside and leaves the same bits to read (R115, R126). -/
theorem readyWindow_unread {w : Stream} (hw : readyWindow cfg epoch st = some w) :
    w.bbs.flat.toNat < w.bbs.fill * 8 ∧ w.bbs.fill ≤ cfg.bufBytes ∧ w.unread epoch = st.unread epoch := by
  rcases readyWindow_cases cfg epoch st with ⟨hin, e⟩ | ⟨-, -, e⟩ | ⟨hend, hsrc, -⟩
  case inl =>
    obtain rfl := Option.some.inj (hw.symm.trans e)
    exact ⟨hin, hfill, rfl⟩
  case inr.inl => simp [hw] at e
  case inr.inr =>
    obtain rfl := Option.some.inj (hw.symm.trans (readyWindow_of_refill hend hsrc))
    have hbytes := hcfg.1
    have hlen := List.length_pos_of_ne_nil hsrc
    have hoff : (BitVec.ofNat 32 (st.bbs.flat.toNat % 8)).toNat = st.bbs.flat.toNat % 8 := by
      rw [BitVec.toNat_ofNat]
      omega
    rw [unread_filled _ _ _ _ (by omega), hoff, Stream.unread,
      if_neg (by omega)]
    refine ⟨?_, Nat.min_le_left .., rfl⟩
    simp only [filled, hoff]
    omega

/-- BbsReadBit takes the first unread bit, or answers EOS when there is none (R112, R122). -/
theorem readBit_unread :
    (readBit cfg epoch st = none ∧ st.unread epoch = []) ∨
    (∃ b st', readBit cfg epoch st = some (b, st') ∧ st.unread epoch = b :: st'.unread epoch ∧
      st'.bbs.fill ≤ cfg.bufBytes) := by
  cases hw : readyWindow cfg epoch st with
  | none =>
    have hread : readBit cfg epoch st = none := by rw [readBit, hw]
    obtain ⟨hend, hsrc⟩ := (readBit_eq_none_iff cfg epoch st).1 hread
    refine .inl ⟨hread, ?_⟩
    rw [Stream.unread, if_neg (by omega), hsrc]
    exact List.drop_nil
  | some w =>
    obtain ⟨hin, hwfill, hunread⟩ := readyWindow_unread hcfg hfill hw
    exact .inr ⟨_, _, readBit_of_readyWindow hw,
      hunread.symm.trans (unread_of_inWindow hin (hwfill.trans hcfg.2.1)), hwfill⟩

/-- The bit a read answers. -/
theorem readBit_fst : (readBit cfg epoch st).map Prod.fst = (st.unread epoch).head? := by
  obtain ⟨hread, hunread⟩ | ⟨b, st', hread, hunread, -⟩ := readBit_unread (epoch := epoch) hcfg hfill
  · simp [hread, hunread]
  · simp [hread, hunread]

/-- `j` reads take the first `j` unread bits. -/
theorem afterReads_unread (j : Nat) :
    (afterReads cfg epoch j st).unread epoch = (st.unread epoch).drop j ∧
    (afterReads cfg epoch j st).bbs.fill ≤ cfg.bufBytes := by
  induction j generalizing st with
  | zero => exact ⟨rfl, hfill⟩
  | succ j ih =>
    obtain ⟨hread, hunread⟩ | ⟨b, st', hread, hunread, hfill'⟩ := readBit_unread (epoch := epoch) hcfg hfill
    · simpa [afterReads, hread, hunread] using ih hfill
    · simpa [afterReads, hread, hunread] using ih hfill'

/-- The `j`-th read answers the `j`-th unread bit, and EOS from their end on. -/
theorem readBit_afterReads_fst (j : Nat) :
    (readBit cfg epoch (afterReads cfg epoch j st)).map Prod.fst = (st.unread epoch)[j]? := by
  obtain ⟨hunread, hfill'⟩ := afterReads_unread (epoch := epoch) hcfg hfill j
  rw [readBit_fst hcfg hfill', hunread, List.head?_drop]

end

/-- Settles O23: a read's two answers, and the invariant's own lemma for the range. -/
theorem readBitTakesTheNextUnreadBit : Obligations.ReadBitTakesTheNextUnreadBit := by
  intro cfg epoch st hcfg hst
  obtain ⟨hread, hunread⟩ | ⟨b, st', hread, hunread, -⟩ := readBit_unread (epoch := epoch) hcfg hst.1
  · rw [hread]
    exact hunread
  · rw [hread]
    exact ⟨hunread, readBit_bounded hcfg hst hread⟩

end Sys2Proof.Machine
end

section
/-! The commands of the BBS that read at most one bit (42_bbs.md R110, R114, R121, R124, R127) and the stream
law (R125). -/

namespace Sys2Proof.Machine

/-! ### BINIT (R110) -/

theorem exec_binit_of_le {s : State} (h : s.latch.a0.toNat ≤ s.cfg.bufBytes * 8) :
    exec .binit s = finish (s.setStream (filled s.bbs.buf s.cfg.bufBytes s.src s.latch.a0)) := by
  have hstart : ¬ s.operand0 > s.cfg.bufBytes * 8 := Nat.not_lt.2 h
  have hflat : BitVec.ofNat 32 s.operand0 = s.latch.a0 := by simp [State.operand0]
  rw [exec, execBinit, if_neg hstart, filled, srcRead_guarded, ← List.length_take, hflat]
  rfl

/-- Settles O21: BINIT is a fill, with the cursor at its operand. -/
theorem binitFillsTheWindow : Obligations.BinitFillsTheWindow := by
  refine ⟨by decide, fun s => ⟨fun hle => ?ok, fun hgt => if_pos hgt⟩⟩
  exact ⟨_, exec_binit_of_le hle, load?_fill ..⟩

/-! ### BRDBIT (R114, R115) -/

/-- A bit as a result word, by arithmetic (R15). -/
theorem bitWord_streamBit (b : Byte) (o : Nat) :
    bitWord (streamBit b o) = BitVec.ofNat 32 (b.toNat / 2 ^ (7 - o) % 2) := by
  rw [bitWord, streamBit]
  obtain h | h := Nat.mod_two_eq_zero_or_one (b.toNat / 2 ^ (7 - o)) <;> simp [h]

theorem exec_brdbit_of_readyWindow {s : State} {w : Stream}
    (h : readyWindow s.cfg s.epoch s.stream = some w) :
    exec .brdbit s =
      finish ((s.setStream { w with bbs := { w.bbs with flat := w.bbs.flat + 1#32 } }).setRes0
        (BitVec.ofNat 32 ((bufRead s.epoch w.bbs.buf (w.bbs.flat.toNat / 8)).toNat /
          2 ^ (7 - w.bbs.flat.toNat % 8) % 2))) := by
  rw [← bitWord_streamBit, exec, execBrdbit, readBit_of_readyWindow h]

theorem exec_brdbit_of_ended {s : State} (hend : s.bbs.fill * 8 ≤ s.bbs.flat.toNat) (hsrc : s.src = []) :
    exec .brdbit s = raise .endOfSource s := by
  have hread := (readBit_eq_none_iff s.cfg s.epoch s.stream).2 ⟨hend, hsrc⟩
  rw [exec, execBrdbit, hread]

theorem exec_brdbit_of_inWindow {s : State} (hin : s.bbs.flat.toNat < s.bbs.fill * 8) :
    exec .brdbit s =
      finish ((s.setStream { s.stream with bbs := { s.bbs with flat := s.bbs.flat + 1#32 } }).setRes0
        (BitVec.ofNat 32 ((bufRead s.epoch s.bbs.buf (s.bbs.flat.toNat / 8)).toNat /
          2 ^ (7 - s.bbs.flat.toNat % 8) % 2))) :=
  exec_brdbit_of_readyWindow (if_neg (Nat.not_le.2 hin))

/-- At or past the window's end the bit comes from the first new byte, which a refill puts at BUF[0]. -/
theorem exec_brdbit_of_refill {s : State} {b : Byte} {rest : List Byte} (hcfg : s.cfg.Legal)
    (hend : s.bbs.fill * 8 ≤ s.bbs.flat.toNat) (hsrc : s.src = b :: rest) :
    exec .brdbit s =
      finish ((s.setStream (filled s.bbs.buf s.cfg.bufBytes s.src
          (BitVec.ofNat 32 (s.bbs.flat.toNat % 8 + 1)))).setRes0
        (BitVec.ofNat 32 (b.toNat / 2 ^ (7 - s.bbs.flat.toNat % 8) % 2))) := by
  have hoff : s.bbs.flat.toNat % 8 % 2 ^ 32 = s.bbs.flat.toNat % 8 := by omega
  have hbyte : s.bbs.flat.toNat % 8 / 8 = 0 := by omega
  have hfirst : bufRead s.epoch (Memory.storeAll s.bbs.buf 0 (s.src.take s.cfg.bufBytes)) 0 = b := by
    have hlen := hcfg.1
    rw [bufRead_fill _ _ _ _ (by rw [hsrc, List.length_cons]; omega), hsrc]
    rfl
  have hready : readyWindow s.cfg s.epoch s.stream = some (filled s.bbs.buf s.cfg.bufBytes s.src
      (BitVec.ofNat 32 (s.bbs.flat.toNat % 8))) :=
    readyWindow_of_refill hend (by simp [hsrc])
  rw [exec_brdbit_of_readyWindow hready]
  simp only [filled, BitVec.toNat_ofNat, hoff, hbyte, Nat.mod_mod, hfirst, BitVec.ofNat_add]

/-- Settles O22: one lemma per situation of R115. -/
theorem brdbitReadsOrRefillsOrEnds : Obligations.BrdbitReadsOrRefillsOrEnds := by
  refine ⟨by decide, fun s hcfg => ⟨fun hin => ?inWindow, exec_brdbit_of_ended,
    fun b rest hend hsrc => ⟨_, exec_brdbit_of_refill hcfg hend hsrc, load?_fill ..⟩⟩⟩
  rw [exec_brdbit_of_inWindow hin, BitVec.ofNat_add, BitVec.ofNat_toNat, BitVec.setWidth_eq]
  rfl

/-- BRDBIT answers EndOfSource only with no bit to read, and then changes STATUS only (R114, R122). -/
theorem brdbit_endOfSource {s t : State} (h : exec .brdbit s = .next t) (hcode : t.code = .endOfSource) :
    s.bbs.fill * 8 ≤ s.bbs.flat.toNat ∧ s.src = [] ∧ t = s.complete .endOfSource := by
  cases hread : readBit s.cfg s.epoch s.stream with
  | none =>
    obtain ⟨hend, hsrc⟩ := (readBit_eq_none_iff s.cfg s.epoch s.stream).1 hread
    rw [exec_brdbit_of_ended hend hsrc, raise_eq_next] at h
    exact ⟨hend, hsrc, h.symm⟩
  | some r =>
    simp only [exec, execBrdbit, hread, finish_eq_next] at h
    simp [← h] at hcode

/-- Settles O28: EndOfSource leaves the stream as it was, used up and with its cursor where it stood. -/
theorem endOfSourceHoldsUntilNewBytes : Obligations.EndOfSourceHoldsUntilNewBytes := by
  intro s t hcfg h hcode
  obtain ⟨hend, hsrc, rfl⟩ := brdbit_endOfSource h hcode
  exact ⟨rfl, exec_brdbit_of_ended hend hsrc,
    fun b rest => ⟨_, exec_brdbit_of_refill hcfg hend rfl, rfl, rfl, rfl⟩⟩

/-! ### The stream law (R125) -/

/-- Settles O24: BINIT leaves the bits of S from its start on to read, reset all the bits of S. -/
theorem streamLaw : Obligations.StreamLaw := by
  refine ⟨fun s hcfg hstart => ⟨_, exec_binit_of_le hstart, rfl, fun j => ?binit⟩,
    fun cfg epoch S hcfg j => ?reset⟩
  case binit =>
    have hfill : min s.cfg.bufBytes s.src.length ≤ s.cfg.bufBytes := Nat.min_le_left ..
    have hread := readBit_afterReads_fst (epoch := s.epoch)
      (st := filled s.bbs.buf s.cfg.bufBytes s.src s.latch.a0) hcfg hfill j
    rwa [unread_filled _ _ _ _ hstart, List.getElem?_drop, getElem?_bitsOf] at hread
  case reset =>
    rw [readBit_afterReads_fst hcfg (Nat.zero_le _), ← getElem?_bitsOf]
    rfl

/-! ### BEOS and BGET (R121, R124) -/

/-- Settles O26, by the two answers of the probe. -/
theorem beosProbesTheSource : Obligations.BeosProbesTheSource := by
  refine ⟨by decide, fun s => ⟨fun hempty => ?one, fun hne => ?zero⟩⟩
  · simp only [exec, execBeos, (srcEmpty_iff s.src).2 hempty]
    rfl
  · simp only [exec, execBeos, Bool.eq_false_iff.2 (mt (srcEmpty_iff s.src).1 hne)]
    rfl

/-- Settles O27: FILL is at most BUF_BYTES, which fits a word. -/
theorem bgetReadsCursorAndFill : Obligations.BgetReadsCursorAndFill := by
  refine ⟨by decide, fun s hcfg hst => ⟨BitVec.ofNat 32 s.bbs.fill, ?_, rfl⟩⟩
  have hfill := hst.1.trans hcfg.2.1
  rw [BitVec.toNat_ofNat]
  omega

end Sys2Proof.Machine
end

section
/-! BRDBITS (42_bbs.md R116 to R120): its run of reads takes the first unread bits, and each is ORed into a
cleared output at its own place. -/

namespace Sys2Proof.Machine

/-! ### A bit of a byte in PMEM -/

/-- A stream bit is the byte's bit at LSB-0 position `7 - o` (R15). -/
theorem streamBit_eq_getLsbD (b : Byte) (o : Nat) : streamBit b o = b.getLsbD (7 - o) := by
  rw [streamBit, BitVec.getLsbD, Nat.testBit_eq_decide_div_mod_eq]

theorem streamBit_or (x y : Byte) (o : Nat) : streamBit (x ||| y) o = (streamBit x o || streamBit y o) := by
  simp only [streamBit_eq_getLsbD, BitVec.getLsbD_or]

/-- A placed bit is the only one of its byte that can be set (R116). -/
theorem streamBit_placeBit (b : Bool) (i : Nat) {o : Nat} (ho : o < 8) :
    streamBit (placeBit b i) o = (decide (i % 8 = o) && b) := by
  have hi : i % 8 < 8 := Nat.mod_lt _ (by decide)
  rw [placeBit, Nat.and_two_pow_sub_one_eq_mod i 3]
  generalize i % 8 = p at hi
  revert p o b
  decide

/-- ORing bit `i` of an output in sets that bit and leaves every other. -/
theorem streamBit_pmemOrBit (epoch dst : Nat) (m : Memory) (i j : Nat) (b : Bool) :
    streamBit (pmemRead epoch (pmemOrBit epoch m (dst + i / 8) i b) (dst + j / 8)) (j % 8) =
      (streamBit (pmemRead epoch m (dst + j / 8)) (j % 8) || (decide (i = j) && b)) := by
  have hj : j % 8 < 8 := Nat.mod_lt _ (by decide)
  rw [pmemRead_pmemOrBit]
  split
  case isTrue hbyte =>
    have hplace : i % 8 = j % 8 ↔ i = j := by omega
    rw [streamBit_or, streamBit_placeBit b i hj, hbyte]
    simp only [hplace]
  case isFalse hbyte =>
    have hne : i ≠ j := by rintro rfl; exact hbyte rfl
    simp [hne]

/-! ### The packed bits (R117) -/

/-- The bits `bs` ORed into an output at `dst`, from its bit `i` on. -/
def packBits (epoch dst : Nat) : Nat → List Bool → Memory → Memory
  | _, [], m => m
  | i, b :: bs, m => packBits epoch dst (i + 1) bs (pmemOrBit epoch m (dst + i / 8) i b)

/-- Bit `j` of the output is set by the bit packed there. -/
theorem streamBit_packBits (epoch dst : Nat) (bs : List Bool) (m : Memory) (i j : Nat) :
    streamBit (pmemRead epoch (packBits epoch dst i bs m) (dst + j / 8)) (j % 8) =
      (streamBit (pmemRead epoch m (dst + j / 8)) (j % 8) || (decide (i ≤ j) && bs.getD (j - i) false)) := by
  induction bs generalizing m i with
  | nil => simp [packBits]
  | cons b bs ih =>
    rw [packBits, ih, streamBit_pmemOrBit, Bool.or_assoc]
    obtain hlt | rfl | hgt := Nat.lt_trichotomy i j
    · obtain ⟨d, rfl⟩ := Nat.exists_eq_add_of_lt hlt
      have hrest : i + d + 1 - (i + 1) = d := by omega
      have hcons : i + d + 1 - i = d + 1 := by omega
      simp [hrest, hcons, hlt.ne, hlt.le, Nat.succ_le_of_lt hlt]
    · simp
    · simp [hgt.ne', Nat.not_le.2 hgt, Nat.not_le.2 (Nat.lt_succ_of_lt hgt)]

/-- Packing leaves every byte alone that holds none of the output's bits. -/
theorem pmemRead_packBits_other {epoch dst a : Nat} (bs : List Bool) (m : Memory) {i : Nat}
    (ha : ∀ j < i + bs.length, dst + j / 8 ≠ a) :
    pmemRead epoch (packBits epoch dst i bs m) a = pmemRead epoch m a := by
  induction bs generalizing m i with
  | nil => rfl
  | cons b bs ih =>
    rw [List.length_cons] at ha
    rw [packBits, ih _ fun j hj => ha j (by omega), pmemRead_pmemOrBit, if_neg (ha i (by omega))]

theorem pmemRead_pmemClear (epoch : Nat) (m : Memory) (base n a : Nat) :
    pmemRead epoch (pmemClear m base n) a =
      if base ≤ a ∧ a < base + n then 0#8 else pmemRead epoch m a := by
  rw [pmemRead, load?_pmemClear]
  split <;> rfl

/-! ### The run of reads (R116, R118) -/

/-- A run of `left` reads takes the first `left` unread bits, or all of them when there are fewer. -/
theorem readBitsLoop_eq {cfg : Params} {epoch : Nat} {st : Stream} (hcfg : cfg.Legal)
    (hfill : st.bbs.fill ≤ cfg.bufBytes) (dst left i : Nat) (m : Memory) :
    readBitsLoop cfg epoch dst left i m st =
      { count := i + min left (st.unread epoch).length
        all := decide (left ≤ (st.unread epoch).length)
        pmem := packBits epoch dst i ((st.unread epoch).take left) m
        st := afterReads cfg epoch (min left (st.unread epoch).length) st } := by
  induction left generalizing st i m with
  | zero => simp [readBitsLoop, packBits, afterReads]
  | succ left ih =>
    obtain ⟨hread, hunread⟩ | ⟨b, st', hread, hunread, hfill'⟩ := readBit_unread (epoch := epoch) hcfg hfill
    case inl => simp [readBitsLoop, hread, hunread, packBits, afterReads]
    case inr =>
      simp [readBitsLoop, hread, hunread, ih hfill', packBits, afterReads, Nat.add_min_add_right,
        Nat.shiftRight_eq_div_pow, Nat.add_assoc, Nat.add_comm 1]

/-! ### BRDBITS -/

section
variable {s : State} {n dst nb i : Nat} {u : List Bool} (hn : n = s.operand0) (hdst : dst = s.operand1)
  (hnb : nb = (n + 7) / 8)
include hn hdst hnb

theorem exec_brdbits_of_not_fit (h : s.cfg.pmemBytes < dst + nb) :
    exec .brdbits s = raise .invalidArgument s := by
  have hshift : (n + 7) >>> 3 = nb := by rw [hnb, Nat.shiftRight_eq_div_pow]
  refine if_pos ?_
  rw [← hn, ← hdst, hshift]
  exact h

/-- With an output that fits, both exits are one completion: the code is OK when no bit was missing. -/
theorem exec_brdbits_of_fit (hcfg : s.cfg.Legal) (hfill : s.bbs.fill ≤ s.cfg.bufBytes)
    (hu : u = s.stream.unread s.epoch) (hi : i = min n u.length) (h : dst + nb ≤ s.cfg.pmemBytes) :
    exec .brdbits s =
      raise (if i = n then .ok else .endOfSource)
        { (s.setStream (afterReads s.cfg s.epoch i s.stream)).setRes0 (BitVec.ofNat 32 i) with
          pmem := packBits s.epoch dst 0 (u.take n) (pmemClear s.pmem dst nb) } := by
  have hin : ¬ dst + nb > s.cfg.pmemBytes := Nat.not_lt.2 h
  have hshift : (n + 7) >>> 3 = nb := by rw [hnb, Nat.shiftRight_eq_div_pow]
  have hall : n ≤ u.length ↔ i = n := by omega
  have hloop := readBitsLoop_eq (epoch := s.epoch) (st := s.stream) hcfg hfill dst n 0
    (pmemClear s.pmem dst nb)
  simp only [← hu, ← hi, hall, Nat.zero_add] at hloop
  simp only [exec, execBrdbits, ← hn, ← hdst, hshift, if_neg hin, hloop, decide_eq_true_eq]
  split <;> rfl

end

/-- The output of BRDBITS: the bits read, 0 after them, and PMEM outside it as before (R117, R118). -/
theorem packBits_pmemClear_spec {epoch dst n nb i : Nat} {u : List Bool} (m : Memory)
    (hnb : nb = (n + 7) / 8) (hi : i = min n u.length) {m' : Memory}
    (hm' : m' = packBits epoch dst 0 (u.take n) (pmemClear m dst nb)) :
    (∀ j, j < i → u[j]? = some (streamBit (pmemRead epoch m' (dst + j / 8)) (j % 8))) ∧
    (∀ j, i ≤ j → j < 8 * nb → streamBit (pmemRead epoch m' (dst + j / 8)) (j % 8) = false) ∧
    (∀ a, a < dst ∨ dst + nb ≤ a → pmemRead epoch m' a = pmemRead epoch m a) := by
  have hbit : ∀ j < 8 * nb,
      streamBit (pmemRead epoch m' (dst + j / 8)) (j % 8) = (u.take n).getD j false := by
    intro j hj
    have hcleared : pmemRead epoch (pmemClear m dst nb) (dst + j / 8) = 0#8 := by
      rw [pmemRead_pmemClear, if_pos (by omega)]
    rw [hm', streamBit_packBits, hcleared, streamBit_eq_getLsbD]
    simp
  refine ⟨fun j hj => ?read, fun j hij hj => ?zero, fun a ha => ?other⟩
  case read =>
    have hlen : j < u.length := by omega
    rw [hbit j (by omega), List.getD_eq_getElem?_getD, List.getElem?_take_of_lt (by omega)]
    simp [hlen]
  case zero =>
    rw [hbit j hj, List.getD_eq_default _ _ (by rw [List.length_take]; omega)]
  case other =>
    have hout : ∀ j < 0 + (u.take n).length, dst + j / 8 ≠ a := by
      intro j hj
      rw [List.length_take] at hj
      omega
    rw [hm', pmemRead_packBits_other _ _ hout, pmemRead_pmemClear, if_neg (by omega)]

/-- Settles O25: the run of reads is one completion, and its output is the packed bits. -/
theorem brdbitsPacksTheStreamIntoPmem : Obligations.BrdbitsPacksTheStreamIntoPmem := by
  refine ⟨by decide, fun s n dst nb i u hcfg hst hn hdst hnb hu hi =>
    ⟨exec_brdbits_of_not_fit hn hdst hnb, fun hfit => ?fit⟩⟩
  obtain ⟨hfill, -⟩ := hst
  obtain ⟨hunread, -⟩ := afterReads_unread (epoch := s.epoch) (st := s.stream) hcfg hfill i
  refine ⟨_, _, ?exec, rfl, hu ▸ hunread, packBits_pmemClear_spec s.pmem hnb hi rfl⟩
  rw [exec_brdbits_of_fit hn hdst hnb hcfg hfill hu hi hfit]
  split <;> rfl

end Sys2Proof.Machine
end

section
/-! Slots (43_codec.md R128, R129): the opaque pixels' channels in scan order, and the bits they carry. -/

namespace Sys2Proof.Machine

/-! ### The slots of the pixels of a scan -/

/-- The slots of the pixels `ps`, in their order. -/
def slotsOf (r : Raster) (ps : List (Nat × Nat)) : List (Nat × Nat × Channel) :=
  ps.flatMap fun p =>
    if (r.getPixel p.1 p.2).a = 0#8 then []
    else [(p.1, p.2, .red), (p.1, p.2, .green), (p.1, p.2, .blue)]

theorem slotOrder_eq_slotsOf (r : Raster) :
    slotOrder r = slotsOf r (scanOrder r.width.toNat r.height.toNat) := rfl

section
variable {r : Raster} {x y : Nat} {ps : List (Nat × Nat)}

theorem slotsOf_cons_of_transparent (h : (r.getPixel x y).transparent) :
    slotsOf r ((x, y) :: ps) = slotsOf r ps := by
  simp [slotsOf, h]

theorem slotsOf_cons_of_opaque (h : ¬ (r.getPixel x y).transparent) :
    slotsOf r ((x, y) :: ps) = (x, y, .red) :: (x, y, .green) :: (x, y, .blue) :: slotsOf r ps := by
  simp [slotsOf, h]

theorem slotsOf_append (ps' : List (Nat × Nat)) : slotsOf r (ps ++ ps') = slotsOf r ps ++ slotsOf r ps' :=
  List.flatMap_append

theorem mem_of_mem_slotsOf {c : Channel} (h : (x, y, c) ∈ slotsOf r ps) : (x, y) ∈ ps := by
  obtain ⟨p, hp, hslot⟩ := List.mem_flatMap.1 h
  have hxy : p = (x, y) := by
    split at hslot
    · simp at hslot
    · simp only [List.mem_cons, Prod.mk.injEq, List.not_mem_nil, or_false] at hslot
      grind
  exact hxy ▸ hp

/-- The slots depend on the pixels' alpha only (R129, R138). -/
theorem slotsOf_congr {r' : Raster} (h : ∀ p ∈ ps, (r'.getPixel p.1 p.2).a = (r.getPixel p.1 p.2).a) :
    slotsOf r' ps = slotsOf r ps := by
  simp only [slotsOf, List.flatMap]
  refine congrArg _ (List.map_congr_left fun p hp => ?_)
  rw [h p hp]

end

/-- Every opaque pixel has three slots (R129, R145). -/
theorem length_slotOrder (r : Raster) : (slotOrder r).length = 3 * opaqueCount r := by
  rw [slotOrder_eq_slotsOf, opaqueCount]
  generalize scanOrder r.width.toNat r.height.toNat = ps
  induction ps with
  | nil => rfl
  | cons p ps ih =>
    obtain ⟨x, y⟩ := p
    by_cases h : (r.getPixel x y).transparent
    · rw [slotsOf_cons_of_transparent h, ih]
      simp [h]
    · rw [slotsOf_cons_of_opaque h]
      simp [h, ih, Nat.mul_add]

/-- The scan goes through the positions in rising order (R128). -/
theorem pairwise_scanOrder (w h : Nat) :
    (scanOrder w h).Pairwise fun p q => p.1 * h + p.2 < q.1 * h + q.2 := by
  refine List.pairwise_flatMap.2 ⟨fun x _ => ?column, List.pairwise_lt_range.imp fun {x x'} hx => ?columns⟩
  case column =>
    exact List.pairwise_map.2 (List.pairwise_lt_range.imp fun hy => Nat.add_lt_add_left hy _)
  case columns =>
    intro p hp q hq
    obtain ⟨y, hy, rfl⟩ := List.mem_map.1 hp
    obtain ⟨y', -, rfl⟩ := List.mem_map.1 hq
    have := position_lt hx (List.mem_range.1 hy)
    exact this.trans_le (Nat.le_add_right ..)

/-! ### The bits in the slots -/

/-- The LSB of a slot. -/
def slotBit (r : Raster) (sl : Nat × Nat × Channel) : Bool :=
  decide (((r.getPixel sl.1 sl.2.1).channel sl.2.2).toNat % 2 = 1)

/-- The LSBs of the slots of the pixels `ps`. -/
def slotBits (r : Raster) (ps : List (Nat × Nat)) : List Bool := (slotsOf r ps).map (slotBit r)

/-- The LSBs of all slots of a raster, in slot order. -/
def Raster.bits (r : Raster) : List Bool := (slotOrder r).map (slotBit r)

theorem Raster.bits_eq_slotBits (r : Raster) :
    r.bits = slotBits r (scanOrder r.width.toNat r.height.toNat) := rfl

@[simp] theorem Raster.length_bits (r : Raster) : r.bits.length = (slotOrder r).length := List.length_map _

theorem slotBits_cons_of_transparent {r : Raster} {x y : Nat} {ps : List (Nat × Nat)}
    (h : (r.getPixel x y).transparent) : slotBits r ((x, y) :: ps) = slotBits r ps := by
  rw [slotBits, slotsOf_cons_of_transparent h, slotBits]

theorem slotBits_append (r : Raster) (ps ps' : List (Nat × Nat)) :
    slotBits r (ps ++ ps') = slotBits r ps ++ slotBits r ps' := by
  simp [slotBits, slotsOf_append]

theorem slotBits_congr {r r' : Raster} {ps : List (Nat × Nat)}
    (h : ∀ p ∈ ps, r'.getPixel p.1 p.2 = r.getPixel p.1 p.2) : slotBits r' ps = slotBits r ps := by
  rw [slotBits, slotsOf_congr fun p hp => congrArg Pixel.a (h p hp)]
  refine List.map_congr_left fun sl hsl => ?_
  obtain ⟨x, y, c⟩ := sl
  simp only [slotBit, h (x, y) (mem_of_mem_slotsOf hsl)]

end Sys2Proof.Machine
end

section
/-! DEC (43_codec.md R137 to R143): its scan takes the LSBs of the slots in order, as many as the output has
bits, and packs them into a cleared output. -/

namespace Sys2Proof.Machine

/-! ### The group of a pixel (R137) -/

/-- The LSBs of the three channels of a pixel, in slot order. -/
def Pixel.bits (px : Pixel) : List Bool :=
  [Channel.red, .green, .blue].map fun c => decide ((px.channel c).toNat % 2 = 1)

theorem slotBits_cons_of_opaque {r : Raster} {x y : Nat} {ps : List (Nat × Nat)}
    (h : ¬ (r.getPixel x y).transparent) :
    slotBits r ((x, y) :: ps) = (r.getPixel x y).bits ++ slotBits r ps := by
  simp [slotBits, slotsOf_cons_of_opaque h, slotBit, Pixel.bits]

theorem groupBit_eq_getLsbD (grp : Byte) (j : Nat) : groupBit grp j = grp.getLsbD (2 - j) := by
  have hlow : ((grp >>> (2 - j)) &&& 1#8) = 1#8 ↔ grp.getLsbD (2 - j) = true := by
    rw [BitVec.toNat_eq]
    simp [Nat.and_one_is_mod, BitVec.getLsbD, Nat.testBit_eq_decide_div_mod_eq, Nat.shiftRight_eq_div_pow]
  rw [groupBit, Bool.eq_iff_iff, beq_iff_eq, hlow]

theorem lsb_eq_getLsbD (c : Byte) : decide (c.toNat % 2 = 1) = c.getLsbD 0 := by
  simp [BitVec.getLsbD, Nat.testBit_zero]

/-- Group bits 0, 1 and 2 are the LSBs of R, G and B. -/
theorem groupBits_eq_bits (px : Pixel) : [0, 1, 2].map (groupBit (group px.r px.g px.b)) = px.bits := by
  simp only [Pixel.bits, lsb_eq_getLsbD]
  simp [groupBit_eq_getLsbD, group, Pixel.channel]

/-! ### The scan (R137) -/

/-- One bit extracted, nothing once k = N (R137). -/
def takeBit (epoch N : Nat) (d : DecSession) (b : Bool) : DecSession :=
  if d.k = N then d else { k := d.k + 1, pmem := pmemOrBit epoch d.pmem (d.k >>> 3) d.k b }

theorem extractPixel_eq_foldl (epoch N : Nat) (px : Pixel) (d : DecSession) :
    extractPixel epoch N px d = px.bits.foldl (takeBit epoch N) d := by
  rw [← groupBits_eq_bits, List.foldl_map]
  rfl

/-- Bits are packed from bit `k` on until the output is full (R139). -/
theorem foldl_takeBit (epoch : Nat) {N : Nat} (bs : List Bool) {d : DecSession} (hd : d.k ≤ N) :
    bs.foldl (takeBit epoch N) d =
      { k := d.k + (bs.take (N - d.k)).length
        pmem := packBits epoch 0 d.k (bs.take (N - d.k)) d.pmem } := by
  induction bs generalizing d with
  | nil => simp [packBits]
  | cons b bs ih =>
    rw [List.foldl_cons, takeBit]
    obtain hfull | hlt := hd.eq_or_lt
    case inl =>
      rw [if_pos hfull, ih hd]
      simp [hfull, packBits]
    case inr =>
      have hleft : N - d.k = N - (d.k + 1) + 1 := by omega
      rw [if_neg hlt.ne, ih (Nat.succ_le_of_lt hlt), hleft]
      simp [packBits, Nat.shiftRight_eq_div_pow, Nat.add_assoc, Nat.add_comm 1]

theorem foldl_takeBit_of_full {epoch N : Nat} (bs : List Bool) {d : DecSession} (hd : d.k = N) :
    bs.foldl (takeBit epoch N) d = d := by
  induction bs with
  | nil => rfl
  | cons b bs ih => rw [List.foldl_cons, takeBit, if_pos hd, ih]

/-- DEC's scan takes the bits of the slots; its code says whether the output is full (R137, R142). -/
theorem decScan_eq_foldl (epoch N : Nat) (r : Raster) (ps : List (Nat × Nat)) (d : DecSession) :
    decScan epoch N r ps d =
      ((slotBits r ps).foldl (takeBit epoch N) d,
        if ((slotBits r ps).foldl (takeBit epoch N) d).k = N then .ok else .endOfSource) := by
  induction ps generalizing d with
  | nil => rfl
  | cons p ps ih =>
    obtain ⟨x, y⟩ := p
    rw [decScan]
    split
    case isTrue hfull => simp [foldl_takeBit_of_full _ hfull, hfull]
    case isFalse =>
      dsimp only
      split
      case isTrue htransparent =>
        rw [ih, slotBits_cons_of_transparent htransparent]
      case isFalse hopaque =>
        rw [ih, slotBits_cons_of_opaque hopaque, List.foldl_append, extractPixel_eq_foldl]

/-! ### DEC -/

theorem exec_dec_of_oversized {s : State} (h : s.cfg.pmemBytes < s.operand0) :
    exec .dec s = raise .invalidArgument s := if_pos h

/-- With an output that fits, both exits are one completion: the code is OK when no bit is missing. -/
theorem exec_dec_of_fit {s : State} {bs : List Bool} (hfit : s.operand0 ≤ s.cfg.pmemBytes)
    (hraster : s.RasterBorrowed) (hbs : bs = s.raster.bits.take (8 * s.operand0)) :
    exec .dec s =
      raise (if bs.length = 8 * s.operand0 then .ok else .endOfSource)
        { s.setRes0 (BitVec.ofNat 32 bs.length) with
          pmem := packBits s.epoch 0 0 bs (pmemClear s.pmem 0 s.operand0) } := by
  obtain ⟨-, hw, hh⟩ := id hraster
  have hrun : decRun s =
      ({ k := bs.length, pmem := packBits s.epoch 0 0 bs (pmemClear s.pmem 0 s.operand0) },
        if bs.length = 8 * s.operand0 then .ok else .endOfSource) := by
    rw [decRun, decScan_eq_foldl, foldl_takeBit _ _ (Nat.zero_le _), ← hw, ← hh,
      ← Raster.bits_eq_slotBits, Nat.sub_zero, ← hbs, Nat.zero_add]
  simp only [exec, execDec, if_neg (Nat.not_lt.2 hfit), if_neg (not_not.2 hraster), hrun]

/-- PMEM after DEC: the extracted bits, 0 in the later bits of the output, and every other byte as before
(R139, R142). -/
theorem dec_output_spec {s : State} {bs : List Bool} (hbs : bs = s.raster.bits.take (8 * s.operand0))
    {m : Memory} (hm : m = packBits s.epoch 0 0 bs (pmemClear s.pmem 0 s.operand0)) :
    (∀ j, j < bs.length → s.raster.bits[j]? = some (streamBit (pmemRead s.epoch m (j / 8)) (j % 8))) ∧
    (∀ j, bs.length ≤ j → j < 8 * s.operand0 → streamBit (pmemRead s.epoch m (j / 8)) (j % 8) = false) ∧
    (∀ a, s.operand0 ≤ a → pmemRead s.epoch m a = s.pmemByte a) := by
  have hbytes : s.operand0 = (8 * s.operand0 + 7) / 8 := by omega
  have hlen : bs.length = min (8 * s.operand0) s.raster.bits.length := by rw [hbs, List.length_take]
  have hspec := packBits_pmemClear_spec s.pmem hbytes hlen (hbs ▸ hm)
  simp only [Nat.zero_add, Nat.not_lt_zero, false_or] at hspec
  exact hspec

/-- Settles O32: the output of DEC's one completion, slot by slot. -/
theorem decExtractsTheSlots : Obligations.DecExtractsTheSlots := by
  refine ⟨by decide, fun s L k hcfg hraster hL hfit hk => ?_⟩
  obtain rfl : L = s.operand0 := hL
  have hlen : (s.raster.bits.take (8 * s.operand0)).length = k := by simp [hk]
  obtain ⟨hbits, hzeros, hother⟩ := dec_output_spec (s := s) rfl rfl
  rw [hlen] at hbits hzeros
  refine ⟨_, ?exec, fun i x y c hi hslot => ?slot, hzeros, hother⟩
  case exec =>
    rw [exec_dec_of_fit hfit hraster rfl, hlen]
    split <;> rfl
  case slot =>
    have hbit := hbits i hi
    rw [Raster.bits, List.getElem?_map, hslot] at hbit
    exact (Option.some.inj hbit).symm

/-! ### Pixels past the last slot (R141) -/

/-- The part of the scan up to the pixel that holds slot `n - 1` holds the first `n` slots. -/
theorem exists_scan_split {r : Raster} {n x y : Nat} {c : Channel} (hn : 0 < n)
    (hlast : (slotOrder r)[n - 1]? = some (x, y, c)) :
    ∃ visited rest, scanOrder r.width.toNat r.height.toNat = visited ++ rest ∧
      n ≤ (slotsOf r visited).length ∧
      ∀ p ∈ visited, p.1 * r.height.toNat + p.2 ≤ x * r.height.toNat + y := by
  obtain ⟨before, rest, hscan⟩ :=
    List.append_of_mem (mem_of_mem_slotsOf (List.mem_of_getElem? hlast))
  have horder := pairwise_scanOrder r.width.toNat r.height.toNat
  rw [hscan] at horder
  obtain ⟨-, hrest, hbefore⟩ := List.pairwise_append.1 horder
  have hsplit : before ++ (x, y) :: rest = before ++ [(x, y)] ++ rest := by simp
  refine ⟨before ++ [(x, y)], rest, hscan.trans hsplit, ?enough, fun p hp => ?order⟩
  case enough =>
    by_contra hshort
    rw [slotOrder_eq_slotsOf, hscan, hsplit, slotsOf_append,
      List.getElem?_append_right (by omega)] at hlast
    have hpast := mem_of_mem_slotsOf (List.mem_of_getElem? hlast)
    exact lt_irrefl _ ((List.pairwise_cons.1 hrest).1 _ hpast)
  case order =>
    rcases List.mem_append.1 hp with hp | hp
    · exact (hbefore _ hp _ (List.mem_cons_self ..)).le
    · obtain rfl := List.mem_singleton.1 hp
      exact le_rfl

/-- The pixels up to the one that holds slot `n - 1` decide the first `n` slot bits. -/
theorem take_bits_of_agree {r r' : Raster} {n x y : Nat} {c : Channel} (hn : 0 < n)
    (hw : r'.width = r.width) (hh : r'.height = r.height) (hlast : (slotOrder r)[n - 1]? = some (x, y, c))
    (hagree : ∀ x' y', x' < r.width.toNat → y' < r.height.toNat →
      x' * r.height.toNat + y' ≤ x * r.height.toNat + y → r'.getPixel x' y' = r.getPixel x' y') :
    r'.bits.take n = r.bits.take n := by
  obtain ⟨visited, rest, hscan, hlen, horder⟩ := exists_scan_split hn hlast
  have hsame : slotBits r' visited = slotBits r visited := by
    refine slotBits_congr fun p hp => ?_
    obtain ⟨hx, hy⟩ := (mem_scanOrder ..).1 (hscan ▸ List.mem_append_left rest hp)
    exact hagree _ _ hx hy (horder p hp)
  have hbits : n ≤ (slotBits r visited).length := by rwa [slotBits, List.length_map]
  rw [Raster.bits_eq_slotBits, Raster.bits_eq_slotBits, hw, hh, hscan, slotBits_append, slotBits_append,
    hsame, List.take_append_of_le_length hbits, List.take_append_of_le_length hbits]

/-- Settles O38: DEC is the same completion on both rasters, since their extracted bits are the same. -/
theorem decReadsNoPixelPastTheLastSlot : Obligations.DecReadsNoPixelPastTheLastSlot := by
  intro s t r x y c hraster hwf hw hh hL hlast hagree hexec
  obtain ⟨-, hlw, hlh⟩ := id hraster
  have hraster' : State.RasterBorrowed { s with raster := r } := ⟨hwf, hw.trans hlw, hh.trans hlh⟩
  have hbits : r.bits.take (8 * s.operand0) = s.raster.bits.take (8 * s.operand0) := by
    refine take_bits_of_agree (Nat.mul_pos (by decide) hL) hw hh hlast ?_
    rwa [hw, hh] at hagree
  obtain hover | hfit := Nat.lt_or_ge s.cfg.pmemBytes s.operand0
  case inl =>
    rw [exec_dec_of_oversized hover] at hexec
    rw [exec_dec_of_oversized (s := { s with raster := r }) hover]
    obtain rfl := (raise_eq_next ..).1 hexec
    rfl
  case inr =>
    rw [exec_dec_of_fit hfit hraster rfl] at hexec
    rw [exec_dec_of_fit (s := { s with raster := r }) hfit hraster' hbits.symm]
    obtain rfl := (raise_eq_next ..).1 hexec
    rfl

end Sys2Proof.Machine
end

section
/-! The source's group-and-trim form of DEC (43_codec.md R140): both forms OR group bit `j` in at stream bit
`k + j`, if the output has that bit. -/

namespace Sys2Proof.Machine

/-- ORing a byte in at `a` ORs its stream bits in. -/
theorem streamBit_pmemWrite_or (epoch : Nat) (m : Memory) (a : Nat) (v : Byte) (j : Nat) :
    streamBit (pmemRead epoch (pmemWrite m a (pmemRead epoch m a ||| v)) (j / 8)) (j % 8) =
      (streamBit (pmemRead epoch m (j / 8)) (j % 8) || (decide (a = j / 8) && streamBit v (j % 8))) := by
  rw [pmemRead_pmemWrite]
  split
  case isTrue hbyte => simp [hbyte, streamBit_or]
  case isFalse hbyte => simp [hbyte]

theorem streamBit_shiftLeft (b : Byte) (n : Nat) (o : Nat) :
    streamBit (b <<< n) o = (decide (n ≤ 7 - o) && b.getLsbD (7 - o - n)) := by
  have ho : 7 - o < 8 := by omega
  simp only [streamBit_eq_getLsbD, BitVec.getLsbD_shiftLeft, ho, decide_true, Bool.true_and, ← decide_not,
    Nat.not_lt]

theorem streamBit_shiftRight (b : Byte) (n o : Nat) : streamBit (b >>> n) o = b.getLsbD (n + (7 - o)) := by
  rw [streamBit_eq_getLsbD, BitVec.getLsbD_ushiftRight]

theorem getLsbD_lowMask (n i : Nat) :
    (BitVec.ofNat 8 (2 ^ n - 1)).getLsbD i = (decide (i < 8) && decide (i < n)) := by
  rw [BitVec.getLsbD_ofNat, Nat.testBit_two_pow_sub_one]

/-- A byte is its eight stream bits (R15). -/
theorem eq_of_streamBit {b b' : Byte} (h : ∀ o < 8, streamBit b o = streamBit b' o) : b = b' := by
  refine BitVec.eq_of_getLsbD_eq fun n hn => ?_
  have hbit := h (7 - n) (by omega)
  have hn' : 7 - (7 - n) = n := by omega
  rwa [streamBit_eq_getLsbD, streamBit_eq_getLsbD, hn'] at hbit

/-- Two memories agree on every byte if they agree on every stream bit. -/
theorem pmemRead_eq_of_streamBit {epoch : Nat} {m m' : Memory}
    (h : ∀ j, streamBit (pmemRead epoch m (j / 8)) (j % 8) = streamBit (pmemRead epoch m' (j / 8)) (j % 8))
    (a : Nat) : pmemRead epoch m a = pmemRead epoch m' a := by
  refine eq_of_streamBit fun o ho => ?_
  have hbit := h (8 * a + o)
  have hbyte : (8 * a + o) / 8 = a := by omega
  have hoff : (8 * a + o) % 8 = o := by omega
  rwa [hbyte, hoff] at hbit

/-! ### One group -/

/-- A group has three bits (R137). -/
theorem getLsbD_group_of_ge (px : Pixel) {n : Nat} (hn : 3 ≤ n) :
    (group px.r px.g px.b).getLsbD n = false := by
  simp [group]
  omega

theorem getElem?_bits (px : Pixel) (i : Nat) :
    px.bits[i]? = if i < 3 then some (groupBit (group px.r px.g px.b) i) else none := by
  have hrange : px.bits = (List.range 3).map (groupBit (group px.r px.g px.b)) := (groupBits_eq_bits px).symm
  by_cases hi : i < 3 <;> simp [hrange, hi]

/-- What a group at bit offset `k` puts at stream bit `j` of an output of `N` bits: group bit `j - k`, which
is the byte's bit `2 - (j - k)`. -/
def placedBit (N k : Nat) (grp : Byte) (j : Nat) : Bool :=
  decide (j < k + 3 ∧ j < N) && grp.getLsbD (k + 2 - j)

section
variable (epoch L k : Nat) (m : Memory) (j : Nat)

/-- The per-bit form (R137). -/
theorem streamBit_extractPixel (px : Pixel) (hk : k < 8 * L) :
    streamBit (pmemRead epoch (extractPixel epoch (8 * L) px { k := k, pmem := m }).pmem (j / 8)) (j % 8) =
      (streamBit (pmemRead epoch m (j / 8)) (j % 8) ||
        placedBit (8 * L) k (group px.r px.g px.b) j) := by
  have hpacked := streamBit_packBits epoch 0 (px.bits.take (8 * L - k)) m k j
  simp only [Nat.zero_add] at hpacked
  rw [extractPixel_eq_foldl, foldl_takeBit epoch px.bits hk.le, hpacked]
  congr 1
  obtain hlt | hge := Nat.lt_or_ge j k
  case inl =>
    rw [placedBit, getLsbD_group_of_ge px (by omega), Bool.and_false, decide_eq_false (Nat.not_le.2 hlt),
      Bool.false_and]
  case inr =>
    obtain ⟨i, rfl⟩ := Nat.exists_eq_add_of_le hge
    have hbit : k + 2 - (k + i) = 2 - i := by omega
    have hroom : k + i < 8 * L ↔ i < 8 * L - k := by omega
    rw [placedBit, hbit, ← groupBit_eq_getLsbD, Nat.add_sub_cancel_left, List.getD_eq_getElem?_getD,
      List.getElem?_take, getElem?_bits]
    by_cases hi : i < 3 <;> by_cases hN : i < 8 * L - k <;> simp [hi, hN, hroom]

/-- The group-and-trim form (R140): the whole group in one byte, or its high part there and its low part in
the next byte, if the output has one. -/
theorem streamBit_groupAndTrim {grp : Byte} (hgrp : ∀ n, 3 ≤ n → grp.getLsbD n = false) (hk : k < 8 * L) :
    streamBit (pmemRead epoch (groupAndTrim epoch L k grp m) (j / 8)) (j % 8) =
      (streamBit (pmemRead epoch m (j / 8)) (j % 8) || placedBit (8 * L) k grp j) := by
  have hbyte : k >>> 3 = k / 8 := Nat.shiftRight_eq_div_pow k 3
  have hoff : k &&& 7 = k % 8 := Nat.and_two_pow_sub_one_eq_mod k 3
  simp only [groupAndTrim, hbyte, hoff, placedBit]
  split
  case isTrue hwhole =>
    rw [streamBit_pmemWrite_or, streamBit_shiftLeft]
    congr 1
    grind
  case isFalse hcut =>
    split
    case isTrue hnext =>
      rw [streamBit_pmemWrite_or, streamBit_pmemWrite_or, Bool.or_assoc, streamBit_shiftRight,
        streamBit_shiftLeft, BitVec.getLsbD_and, getLsbD_lowMask]
      congr 1
      grind
    case isFalse hlast =>
      rw [streamBit_pmemWrite_or, streamBit_shiftRight]
      congr 1
      grind

end

/-- Settles O37. -/
theorem groupAndTrimEqualsPerBitExtraction : Obligations.GroupAndTrimEqualsPerBitExtraction := by
  intro epoch L k m px hk a
  refine pmemRead_eq_of_streamBit (fun j => ?_) a
  rw [streamBit_extractPixel epoch L k m j px hk,
    streamBit_groupAndTrim epoch L k m j (fun _ => getLsbD_group_of_ge px) hk]

end Sys2Proof.Machine
end

section
/-! ENC (43_codec.md R131 to R136): its scan is a walk over the opaque pixels that gives slot `i` payload bit
`i`, for as far as there are bits to embed. -/

namespace Sys2Proof.Machine

/-! ### The payload (R130) -/

/-- The stream after `k` payload bits: bits from PMEM take nothing from it. -/
def streamAfter (m : PayloadSource) (s : State) (k : Nat) : Stream :=
  match m with
  | .pmem => s.stream
  | .bbs => afterReads s.cfg s.epoch k s.stream

/-- PayloadBit, asked for bit after bit, answers the payload bits in order, and EOS at their end. -/
def Supplied (m : PayloadSource) (s : State) : Prop :=
  ∀ k < 8 * s.operand0, payloadBit m s k (streamAfter m s k) =
    ((payloadBits m s)[k]?).map fun b => (b, streamAfter m s (k + 1))

@[simp] theorem length_payloadBits_pmem (s : State) : (payloadBits .pmem s).length = 8 * s.operand0 := by
  simp [payloadBits, State.operand0]

theorem getElem?_payloadBits_pmem {s : State} {k : Nat} (hk : k < 8 * s.operand0) :
    (payloadBits .pmem s)[k]? = some (streamBit (s.pmemByte (k / 8)) (k % 8)) := by
  have hk' : k < 8 * s.latch.a0.toNat := hk
  simp [payloadBits, hk']

theorem supplied_pmem (s : State) : Supplied .pmem s := by
  intro k hk
  have hoff : k &&& 7 = k % 8 := Nat.and_two_pow_sub_one_eq_mod k 3
  rw [getElem?_payloadBits_pmem hk, payloadBit, bitAt_eq_streamBit, Nat.shiftRight_eq_div_pow, hoff]
  rfl

/-- The last of `n + 1` reads. -/
theorem afterReads_succ (cfg : Params) (epoch n : Nat) (st : Stream) :
    afterReads cfg epoch (n + 1) st =
      ((readBit cfg epoch (afterReads cfg epoch n st)).map Prod.snd).getD (afterReads cfg epoch n st) := by
  induction n generalizing st with
  | zero => cases hread : readBit cfg epoch st <;> simp [afterReads, hread]
  | succ n ih =>
    cases hread : readBit cfg epoch st with
    | none => simpa [afterReads, hread] using ih st
    | some r => simpa [afterReads, hread] using ih r.2

theorem supplied_bbs {s : State} (hcfg : s.cfg.Legal) (hfill : s.bbs.fill ≤ s.cfg.bufBytes) :
    Supplied .bbs s := by
  intro k _
  have hfst := readBit_afterReads_fst (epoch := s.epoch) (st := s.stream) hcfg hfill k
  simp only [payloadBit, payloadBits, streamAfter, ← hfst, afterReads_succ]
  cases readBit s.cfg s.epoch (afterReads s.cfg s.epoch k s.stream) <;> rfl

/-! ### A pixel (R131, R132) -/

section
variable (m : PayloadSource) (s : State)

/-- How many bits there are to embed: as far as the length and the payload reach. -/
def embedCount : Nat := min (8 * s.operand0) (payloadBits m s).length

/-- A channel value after ENC, in slot `i`. -/
def embedSlot (i : Nat) (c : Byte) : Byte :=
  if i < embedCount m s then embedBit c ((payloadBits m s).getD i false) else c

/-- An opaque pixel after ENC, its first slot being slot `i`. -/
def embedSlots (i : Nat) (px : Pixel) : Pixel :=
  { r := embedSlot m s i px.r, g := embedSlot m s (i + 1) px.g, b := embedSlot m s (i + 2) px.b, a := px.a }

/-- The work on a pixel when slot `i` is reached and its channels so far are those of `px`. -/
def workAt (i : Nat) (px : Pixel) : PixelWork where
  px := px
  k := min (embedCount m s) i
  st := streamAfter m s (min (embedCount m s) i)
  eos := decide (embedCount m s < 8 * s.operand0 ∧ embedCount m s < i)

variable {m s}

theorem embedSlot_of_le {i : Nat} (h : embedCount m s ≤ i) (c : Byte) : embedSlot m s i c = c :=
  if_neg (Nat.not_lt.2 h)

theorem embedSlots_of_le {i : Nat} (h : embedCount m s ≤ i) (px : Pixel) : embedSlots m s i px = px := by
  simp only [embedSlots, embedSlot_of_le h, embedSlot_of_le (h.trans (Nat.le_add_right ..))]

@[simp] theorem Pixel.setChannel_channel (px : Pixel) (c : Channel) : px.setChannel c (px.channel c) = px := by
  cases c <;> rfl

variable (h : Supplied m s)
include h

/-- One channel is one slot: a bit is embedded, or there is none left. -/
theorem embedChannel_workAt (i : Nat) (px : Pixel) (c : Channel) :
    embedChannel m s (8 * s.operand0) (workAt m s i px) c =
      workAt m s (i + 1) (px.setChannel c (embedSlot m s i (px.channel c))) := by
  have hcount : embedCount m s = min (8 * s.operand0) (payloadBits m s).length := rfl
  obtain hlt | hge := Nat.lt_or_ge i (embedCount m s)
  case inl =>
    have hlen : i < (payloadBits m s).length := by omega
    have hbit := h i (by omega)
    have hN : i ≠ 8 * s.operand0 := by omega
    simp [embedChannel, workAt, embedSlot, hlt, hlt.le, hlt.not_ge, Nat.succ_le_of_lt hlt, hbit, hN, hlen]
  case inr =>
    have hge' : embedCount m s ≤ i + 1 := hge.trans (Nat.le_succ i)
    simp only [embedSlot_of_le hge, Pixel.setChannel_channel, workAt, Nat.min_eq_left hge,
      Nat.min_eq_left hge']
    obtain hall | hend := (hcount ▸ Nat.min_le_left .. : embedCount m s ≤ 8 * s.operand0).eq_or_lt
    case inl => simp [embedChannel, hall]
    case inr =>
      have hnone : (payloadBits m s)[embedCount m s]? = none := List.getElem?_eq_none (by omega)
      have hbit := h _ hend
      rw [hnone] at hbit
      simp [embedChannel, hend, hend.ne, hbit, Nat.lt_succ_of_le hge]

/-- The work on an opaque pixel. -/
theorem embedPixel_eq_workAt {k : Nat} (hk : k ≤ embedCount m s) (px : Pixel) :
    embedPixel m s (8 * s.operand0) px k (streamAfter m s k) = workAt m s (k + 3) (embedSlots m s k px) := by
  have hstart : PixelWork.mk px k (streamAfter m s k) false = workAt m s k px := by
    simp [workAt, hk, hk.not_gt]
  simp only [embedPixel, hstart, List.foldl_cons, List.foldl_nil, embedChannel_workAt h]
  rfl

end

/-! ### The scan (R128, R132) -/

section
variable (m : PayloadSource) (s : State)

/-- A raster after ENC of the pixels `ps`, whose first slot is slot `i`. -/
def embedScan : Nat → List (Nat × Nat) → Raster → Raster
  | _, [], r => r
  | i, (x, y) :: ps, r =>
    if (r.getPixel x y).transparent then embedScan i ps r
    else embedScan (i + 3) ps (r.putPixel x y (embedSlots m s i (r.getPixel x y)))

variable {m s}

/-- Putting back the pixel that is there changes nothing. -/
@[simp] theorem Raster.putPixel_getPixel (r : Raster) (x y : Nat) : r.putPixel x y (r.getPixel x y) = r := by
  have hset : r.pixels.set (x * r.height.toNat + y) (r.getPixel x y) = r.pixels := by
    obtain hlt | hge := Nat.lt_or_ge (x * r.height.toNat + y) r.pixels.length
    · simp [Raster.getPixel, hlt]
    · exact List.set_eq_of_length_le hge
  rw [Raster.putPixel, hset]

/-- No bit is left for slot `i` and the later ones. -/
theorem embedScan_of_le {i : Nat} (hi : embedCount m s ≤ i) (ps : List (Nat × Nat)) (r : Raster) :
    embedScan m s i ps r = r := by
  induction ps generalizing i with
  | nil => rfl
  | cons p ps ih =>
    obtain ⟨x, y⟩ := p
    rw [embedScan, embedSlots_of_le hi, Raster.putPixel_getPixel, ih hi, ih (by omega), ite_self]

theorem embedScan_min (i : Nat) (ps : List (Nat × Nat)) (r : Raster) :
    embedScan m s (min (embedCount m s) i) ps r = embedScan m s i ps r := by
  obtain hle | hge := Nat.le_total i (embedCount m s)
  · rw [Nat.min_eq_right hle]
  · rw [Nat.min_eq_left hge, embedScan_of_le le_rfl, embedScan_of_le hge]

theorem slotsOf_putPixel_embedSlots (r : Raster) (x y i : Nat) (ps : List (Nat × Nat)) :
    slotsOf (r.putPixel x y (embedSlots m s i (r.getPixel x y))) ps = slotsOf r ps := by
  refine slotsOf_congr fun p _ => ?_
  rcases r.getPixel_putPixel_cases x y p.1 p.2 (embedSlots m s i (r.getPixel x y)) with ⟨hsame, hput⟩ | hput
  · rw [hput, hsame, embedSlots]
  · rw [hput]

/-- What ENC's scan leaves, from a session that has come to slot `e.k`. -/
theorem encScan_spec (h : Supplied m s) (ps : List (Nat × Nat)) {e : EncSession} {k : Nat}
    (hk : e.k ≤ embedCount m s) (hst : e.st = streamAfter m s e.k)
    (hend : k = min (embedCount m s) (e.k + (slotsOf e.raster ps).length)) :
    (encScan m s (8 * s.operand0) ps e).1.k = k ∧
    (encScan m s (8 * s.operand0) ps e).1.st = streamAfter m s k ∧
    (encScan m s (8 * s.operand0) ps e).1.raster = embedScan m s e.k ps e.raster ∧
    (encScan m s (8 * s.operand0) ps e).2 = if k = 8 * s.operand0 then .ok else .endOfSource := by
  have hN : embedCount m s ≤ 8 * s.operand0 := Nat.min_le_left ..
  induction ps generalizing e with
  | nil =>
    obtain rfl : k = e.k := by simpa [slotsOf, hk] using hend
    exact ⟨rfl, hst, rfl, rfl⟩
  | cons p ps ih =>
    obtain ⟨x, y⟩ := p
    rw [encScan]
    split
    case isTrue hfull =>
      obtain rfl : k = e.k := by omega
      exact ⟨rfl, hst, (embedScan_of_le (by omega) ..).symm, (if_pos hfull).symm⟩
    case isFalse hmore =>
      dsimp only
      split
      case isTrue htransparent =>
        rw [embedScan, if_pos htransparent]
        rw [slotsOf_cons_of_transparent htransparent] at hend
        exact ih hk hst hend
      case isFalse hopaque =>
        rw [slotsOf_cons_of_opaque hopaque] at hend
        simp only [List.length_cons] at hend
        rw [embedScan, if_neg hopaque, hst, embedPixel_eq_workAt h hk]
        split
        case isTrue hended =>
          obtain ⟨hshort, hlast⟩ := of_decide_eq_true hended
          obtain rfl : k = embedCount m s := by omega
          have hleft : min (embedCount m s) (e.k + 3) = embedCount m s := Nat.min_eq_left hlast.le
          rw [embedScan_of_le hlast.le, if_neg hshort.ne]
          simp only [workAt, hleft]
          split
          case isTrue hnone =>
            refine ⟨rfl, rfl, ?_, trivial⟩
            rw [embedSlots_of_le hnone.le, Raster.putPixel_getPixel]
          case isFalse => exact ⟨rfl, rfl, rfl, trivial⟩
        case isFalse =>
          rw [← embedScan_min]
          exact ih (e := EncSession.put _ x y _) (Nat.min_le_left ..) rfl (by
            simp only [EncSession.put, workAt, slotsOf_putPixel_embedSlots]
            omega)

/-! ### The raster after the scan -/

/-- The scan leaves every pixel alone that it does not visit. -/
theorem embedScan_getPixel_of_not_mem {ps : List (Nat × Nat)} {r : Raster} {x y : Nat} (i : Nat)
    (hps : ∀ p ∈ ps, p.2 < r.height.toNat) (hy : y < r.height.toNat) (hmem : (x, y) ∉ ps) :
    (embedScan m s i ps r).getPixel x y = r.getPixel x y := by
  induction ps generalizing i r with
  | nil => rfl
  | cons p ps ih =>
    obtain ⟨x', y'⟩ := p
    obtain ⟨hy', hps'⟩ := List.forall_mem_cons.1 hps
    obtain ⟨hne, hmem'⟩ := not_or.1 (mt List.mem_cons.2 hmem)
    have hne' : ¬ (x' = x ∧ y' = y) := by simpa [eq_comm] using hne
    rw [embedScan]
    split
    · exact ih i hps' hy hmem'
    · exact (ih (r := r.putPixel x' y' _) _ hps' hy hmem').trans
        (Raster.getPixel_putPixel_other hy' hy hne' _)

/-- Each channel of an opaque pixel that the scan visits is a slot, embedded in turn. -/
theorem embedScan_channel {ps : List (Nat × Nat)} {r : Raster} (hwf : r.wf)
    (hps : ∀ p ∈ ps, p.1 < r.width.toNat ∧ p.2 < r.height.toNat) (hnodup : ps.Nodup) (i : Nat)
    {j x y : Nat} {c : Channel} (hslot : (slotsOf r ps)[j]? = some (x, y, c)) :
    ((embedScan m s i ps r).getPixel x y).channel c =
      embedSlot m s (i + j) ((r.getPixel x y).channel c) := by
  induction ps generalizing i j r with
  | nil => simp [slotsOf] at hslot
  | cons p ps ih =>
    obtain ⟨x', y'⟩ := p
    obtain ⟨⟨hx', hy'⟩, hps'⟩ := List.forall_mem_cons.1 hps
    obtain ⟨hnew, hnodup'⟩ := List.nodup_cons.1 hnodup
    rw [embedScan]
    split
    case isTrue htransparent =>
      rw [slotsOf_cons_of_transparent htransparent] at hslot
      exact ih hwf hps' hnodup' i hslot
    case isFalse hopaque =>
      rw [slotsOf_cons_of_opaque hopaque] at hslot
      have hvisited : (embedScan m s (i + 3) ps
          (r.putPixel x' y' (embedSlots m s i (r.getPixel x' y')))).getPixel x' y' =
            embedSlots m s i (r.getPixel x' y') :=
        (embedScan_getPixel_of_not_mem (r := r.putPixel x' y' _) _ (fun p hp => (hps' p hp).2) hy' hnew).trans
          (Raster.getPixel_putPixel_self hwf hx' hy' _)
      match j, hslot with
      | 0, hslot | 1, hslot | 2, hslot =>
        obtain ⟨rfl, rfl, rfl⟩ : x' = x ∧ y' = y ∧ _ = c := by simpa using hslot
        rw [hvisited]
        rfl
      | j + 3, hslot =>
        have hrest : (slotsOf r ps)[j]? = some (x, y, c) := hslot
        have hmem := mem_of_mem_slotsOf (List.mem_of_getElem? hrest)
        have hne : ¬ (x' = x ∧ y' = y) := by rintro ⟨rfl, rfl⟩; exact hnew hmem
        rw [← slotsOf_putPixel_embedSlots (m := m) (s := s) r x' y' i] at hrest
        rw [ih (Raster.wf_putPixel hwf ..) hps' hnodup' (i + 3) hrest,
          Raster.getPixel_putPixel_other hy' (hps' _ hmem).2 hne, Nat.add_assoc, Nat.add_comm 3]

/-- The scan keeps the dimensions and the slots (R131, R138). -/
theorem embedScan_kept (ps : List (Nat × Nat)) (r : Raster) (i : Nat) :
    (embedScan m s i ps r).width = r.width ∧ (embedScan m s i ps r).height = r.height ∧
    (r.wf → (embedScan m s i ps r).wf) ∧ ∀ qs, slotsOf (embedScan m s i ps r) qs = slotsOf r qs := by
  induction ps generalizing r i with
  | nil => exact ⟨rfl, rfl, id, fun _ => rfl⟩
  | cons p ps ih =>
    obtain ⟨x, y⟩ := p
    rw [embedScan]
    split
    · exact ih r i
    · obtain ⟨hw, hh, hwf, hslots⟩ := ih (r.putPixel x y (embedSlots m s i (r.getPixel x y))) (i + 3)
      exact ⟨hw, hh, fun hr => hwf (Raster.wf_putPixel hr ..),
        fun qs => (hslots qs).trans (slotsOf_putPixel_embedSlots ..)⟩

end

/-- The raster after ENC: the one before, its slots embedded in turn. -/
def embedRaster (m : PayloadSource) (s : State) : Raster :=
  embedScan m s 0 (scanOrder s.raster.width.toNat s.raster.height.toNat) s.raster

section
variable {m : PayloadSource} {s : State}

theorem slotOrder_embedRaster : slotOrder (embedRaster m s) = slotOrder s.raster := by
  obtain ⟨hw, hh, -, hslots⟩ := embedScan_kept (m := m) (s := s)
    (scanOrder s.raster.width.toNat s.raster.height.toNat) s.raster 0
  rw [slotOrder_eq_slotsOf, embedRaster, hw, hh, hslots, slotOrder_eq_slotsOf]

theorem embedRaster_wf (hwf : s.raster.wf) : (embedRaster m s).wf := (embedScan_kept ..).2.2.1 hwf

/-- Slot `i` after ENC (R131). -/
theorem embedRaster_channel (hwf : s.raster.wf) {i x y : Nat} {c : Channel}
    (hslot : (slotOrder s.raster)[i]? = some (x, y, c)) :
    ((embedRaster m s).getPixel x y).channel c = embedSlot m s i ((s.raster.getPixel x y).channel c) := by
  have hchannel := embedScan_channel (m := m) (s := s) hwf (fun p hp => (mem_scanOrder ..).1 hp)
    (nodup_scanOrder ..) 0 hslot
  rwa [Nat.zero_add] at hchannel

end

/-! ### ENC -/

theorem exec_enc_of_oversized {m : PayloadSource} {s : State} (h : encLimit m s.cfg < s.operand0) :
    exec (.enc m) s = raise .invalidArgument s := if_pos h

/-- With a length within its limit, both exits are one completion: the code is OK when no bit is missing. -/
theorem exec_enc_of_fit {m : PayloadSource} {s : State} {k : Nat} (hfit : s.operand0 ≤ encLimit m s.cfg)
    (hraster : s.RasterBorrowed) (h : Supplied m s)
    (hk : k = min (8 * s.operand0) (min (slotOrder s.raster).length (payloadBits m s).length)) :
    exec (.enc m) s =
      raise (if k = 8 * s.operand0 then .ok else .endOfSource)
        { (s.setStream (streamAfter m s k)).setRes0 (BitVec.ofNat 32 k) with
          raster := embedRaster m s } := by
  obtain ⟨-, hw, hh⟩ := id hraster
  have hend : k = min (embedCount m s) (0 + (slotOrder s.raster).length) := by
    rw [embedCount, hk]
    omega
  have hstart : s.stream = streamAfter m s 0 := by cases m <;> rfl
  obtain ⟨hrk, hrst, hrr, hrc⟩ := encScan_spec h (scanOrder s.raster.width.toNat s.raster.height.toNat)
    (e := { k := 0, st := s.stream, raster := s.raster, puts := [] }) (Nat.zero_le _) hstart hend
  simp only [exec, execEnc, if_neg (Nat.not_lt.2 hfit), if_neg (not_not.2 hraster), encRun, embedRaster, ← hw,
    ← hh, hrk, hrst, hrr, hrc]

/-! ### Embedded bits (R131) -/

theorem embedBit_mod_two (c : Byte) (b : Bool) : (embedBit c b).toNat % 2 = b.toNat := by
  have hclear : (c.toNat &&& 0xFE) % 2 = 0 := by
    simpa using Nat.and_mod_two_pow (a := c.toNat) (b := 0xFE) (n := 1)
  cases b <;> simp [embedBit, bitByte, Nat.or_mod_two_eq_one, hclear]

/-- Embedding replaces the LSB. -/
theorem toNat_embedBit (c : Byte) (b : Bool) : (embedBit c b).toNat = c.toNat / 2 * 2 + b.toNat := by
  have hhigh := embedBit_div_two c b
  have hlow := embedBit_mod_two c b
  omega

/-- Slot `i` after ENC carries payload bit `i`. -/
theorem bits_embedRaster {m : PayloadSource} {s : State} (hwf : s.raster.wf) {i : Nat}
    (hi : i < embedCount m s) (hroom : i < (slotOrder s.raster).length) :
    (embedRaster m s).bits[i]? = (payloadBits m s)[i]? := by
  obtain ⟨⟨x, y, c⟩, hslot⟩ : ∃ sl, (slotOrder s.raster)[i]? = some sl :=
    ⟨_, List.getElem?_eq_getElem hroom⟩
  have hlen : i < (payloadBits m s).length := hi.trans_le (Nat.min_le_right ..)
  rw [Raster.bits, slotOrder_embedRaster, List.getElem?_map, hslot, Option.map_some, slotBit,
    embedRaster_channel hwf hslot, embedSlot, if_pos hi, embedBit_mod_two]
  simp [hlen]

/-- Settles O31: the one completion of ENC, its raster slot by slot, its stream for either source. -/
theorem encEmbedsThePayload : Obligations.EncEmbedsThePayload := by
  refine ⟨by decide, by decide, fun m s L k u hcfg hst hraster hL hpmem hbbs hu hk => ?_⟩
  obtain rfl : L = s.operand0 := hL
  subst hu
  have hfit : s.operand0 ≤ encLimit m s.cfg := by
    cases m with
    | pmem => exact hpmem rfl
    | bbs => exact hbbs rfl
  have hsupplied : Supplied m s := by
    cases m with
    | pmem => exact supplied_pmem s
    | bbs => exact supplied_bbs hcfg hst.1
  have hexec := exec_enc_of_fit hfit hraster hsupplied hk
  obtain ⟨hwf, -, -⟩ := id hraster
  obtain ⟨hw, hh, hwf', hkept⟩ := alphaAndHighBitsNeverChange (.enc m) s _ hwf hexec
  refine ⟨embedRaster m s, streamAfter m s k, ?exec, hw, hh, hwf', fun i x y c hslot => ?slot,
    fun x y hx hy => ?kept, ?fromPmem, ?fromBbs⟩
  case exec =>
    rw [hexec]
    split <;> rfl
  case slot =>
    obtain ⟨hroom, -⟩ := List.getElem?_eq_some_iff.1 hslot
    have hcount : i < embedCount m s ↔ i < k := by
      rw [embedCount]
      omega
    rw [embedRaster_channel hwf hslot, embedSlot]
    simp only [hcount]
    split
    case isTrue hi =>
      have hlen : i < (payloadBits m s).length := by omega
      rw [toNat_embedBit]
      simp [hlen, Bool.toNat, Bool.cond_eq_ite]
    case isFalse => rfl
  case kept =>
    obtain ⟨halpha, htransparent, -⟩ := hkept x y hx hy
    exact ⟨halpha, htransparent⟩
  case fromPmem =>
    rintro rfl
    rfl
  case fromBbs =>
    rintro rfl
    exact ⟨rfl, (afterReads_unread hcfg hst.1 k).1⟩

end Sys2Proof.Machine
end

section
/-! Laws of the codec (43_codec.md R143 to R149): operand checks, capacity, round trip, frame, completion. -/

namespace Sys2Proof.Machine

/-- Settles O30. -/
theorem codecChecksItsLengthFirst : Obligations.CodecChecksItsLengthFirst :=
  fun _ => ⟨fun h => ⟨exec_enc_of_oversized (m := .pmem) h, exec_dec_of_oversized h⟩,
    fun h => exec_enc_of_oversized (m := .bbs) h⟩

/-- Settles O41: the only other outcome is the refusal of a raster that is not the one sampled. -/
theorem everyCommandCompletes : Obligations.EveryCommandCompletes := by
  intro i s hraster
  rcases exec_outcome i s with ⟨hneeds, hnot, -⟩ | ⟨c, u, hraise, -⟩
  · exact absurd (hraster hneeds) hnot
  · exact ⟨u.complete c, hraise, rfl⟩

/-! ### Capacity (R145) -/

/-- A completion that reports `k` bits of `N`, in a raster of `n` slots. -/
theorem capacity_of_completion {o : Host.Outcome State Fault Refusal} {N n k : Nat} {u : State}
    (ho : o = raise (if k = N then .ok else .endOfSource) u) (hres : u.res0 = BitVec.ofNat 32 k)
    (hk : k = min N n) (hN : N < 2 ^ 32) :
    ∃ t, o = .next t ∧ (t.code = .ok ↔ N ≤ n) ∧
      (t.code ≠ .ok → t.code = .endOfSource ∧ t.res0.toNat = n) := by
  refine ⟨_, ho, ?_⟩
  simp only [State.complete_code, State.complete_res0, hres, BitVec.toNat_ofNat]
  split
  case isTrue hfull =>
    exact ⟨by simp only [true_iff]; omega, fun hfail => absurd rfl hfail⟩
  case isFalse hshort =>
    exact ⟨by simp only [reduceCtorEq, false_iff]; omega, fun _ => ⟨rfl, by omega⟩⟩

/-- Settles O34: both commands report as many bits as there are slots, up to 8L. -/
theorem codecSucceedsIffTheRasterHasRoom : Obligations.CodecSucceedsIffTheRasterHasRoom := by
  intro i s hi hcfg hraster hfit
  obtain ⟨-, -, -, hsize⟩ := hcfg
  rw [← length_slotOrder]
  rcases hi with rfl | rfl
  case inl =>
    have hexec := exec_enc_of_fit (m := .pmem) hfit hraster (supplied_pmem s) rfl
    refine capacity_of_completion hexec rfl ?_ (by omega)
    rw [length_payloadBits_pmem, State.operand0]
    omega
  case inr =>
    have hexec := exec_dec_of_fit hfit hraster rfl
    exact capacity_of_completion hexec rfl (by rw [List.length_take, Raster.length_bits, State.operand0])
      (by omega)

/-! ### Round trip (R144) -/

/-- DEC on the raster that ENC from PMEM left, with room for the payload, gives the payload back. -/
theorem exec_dec_of_embedRaster {s v : State} (hwf : s.raster.wf)
    (hroom : 8 * s.operand0 ≤ (slotOrder s.raster).length) (hv : v.raster = embedRaster .pmem s)
    (hborrowed : v.RasterBorrowed) (hL : v.operand0 = s.operand0) (hfit : v.operand0 ≤ v.cfg.pmemBytes) :
    ∃ u, exec .dec v = .next u ∧ u.code = .ok ∧ ∀ a, a < s.operand0 → u.pmemByte a = s.pmemByte a := by
  have hlen : (v.raster.bits.take (8 * v.operand0)).length = 8 * s.operand0 := by
    rw [List.length_take, Raster.length_bits, hv, slotOrder_embedRaster, hL, Nat.min_eq_left hroom]
  refine ⟨_, exec_dec_of_fit hfit hborrowed rfl, ?code, fun a ha => eq_of_streamBit fun o ho => ?bit⟩
  case code => rw [State.complete_code, hlen, hL, if_pos rfl]
  case bit =>
    obtain ⟨hbits, -⟩ := dec_output_spec (s := v) rfl rfl
    have hbit := hbits (8 * a + o) (by omega)
    have hcount : 8 * a + o < embedCount .pmem s := by
      rw [embedCount, length_payloadBits_pmem]
      omega
    have hcarried := bits_embedRaster hwf hcount (by omega)
    rw [← hv, hbit, getElem?_payloadBits_pmem (by omega), Option.some.injEq] at hcarried
    have hbyte : (8 * a + o) / 8 = a := by omega
    have hoff : (8 * a + o) % 8 = o := by omega
    rwa [hbyte, hoff] at hcarried

/-- Settles O33: DEC sees the slots of ENC, and each carries its payload bit. -/
theorem decodeOfEncodeIsThePayload : Obligations.DecodeOfEncodeIsThePayload := by
  intro s hcfg hraster hfit hopaque
  obtain ⟨hwf, -, -⟩ := id hraster
  have hroom : 8 * s.operand0 ≤ (slotOrder s.raster).length := by
    have hL : s.operand0 = s.latch.a0.toNat := rfl
    rw [length_slotOrder]
    omega
  have hk : 8 * s.operand0 =
      min (8 * s.operand0) (min (slotOrder s.raster).length (payloadBits .pmem s).length) := by
    rw [length_payloadBits_pmem]
    omega
  have hexec := exec_enc_of_fit (m := .pmem) hfit hraster (supplied_pmem s) hk
  rw [if_pos rfl] at hexec
  obtain ⟨t, henc, hok, hraster', hcfg'⟩ : ∃ t, exec (.enc .pmem) s = .next t ∧ t.code = .ok ∧
      t.raster = embedRaster .pmem s ∧ t.cfg = s.cfg := ⟨_, hexec, rfl, rfl, rfl⟩
  obtain ⟨u, hdec⟩ := exec_dec_of_embedRaster (v := State.accept { t with arg0 := s.latch.a0 } (encode .dec))
    hwf hroom hraster' ⟨hraster' ▸ embedRaster_wf hwf, rfl, rfl⟩ rfl (hcfg' ▸ hfit)
  exact ⟨t, u, henc, hok, hdec⟩

/-! ### Frame (R147) -/

/-- A completion with one of the codec's codes records no fault event (R165). -/
theorem complete_of_codec_code {u : State} {c : Code}
    (hc : c = .ok ∨ c = .endOfSource ∨ c = .invalidArgument) :
    u.complete c = { u with code := c, busy := false } := by
  rcases hc with rfl | rfl | rfl <;> rfl

theorem exec_enc_frame {m : PayloadSource} {s t : State} (h : exec (.enc m) s = .next t) :
    t = { s with raster := t.raster, res0 := t.res0, code := t.code, busy := false, bbs := t.bbs,
                 src := t.src } := by
  simp only [exec, execEnc] at h
  split at h
  case isTrue =>
    obtain rfl := (raise_eq_next ..).1 h
    rfl
  case isFalse =>
    split at h
    case isTrue => simp at h
    case isFalse =>
      obtain rfl := (raise_eq_next ..).1 h
      have hcode : (encRun m s).2 = .ok ∨ (encRun m s).2 = .endOfSource := encScan_code ..
      rw [complete_of_codec_code (hcode.imp_right .inl)]
      rfl

theorem exec_dec_frame {s t : State} (h : exec .dec s = .next t) :
    t = { s with pmem := t.pmem, res0 := t.res0, code := t.code, busy := false } ∧
    ∀ a, s.operand0 ≤ a → t.pmemByte a = s.pmemByte a := by
  obtain hover | hfit := Nat.lt_or_ge s.cfg.pmemBytes s.operand0
  case inl =>
    obtain rfl := (raise_eq_next ..).1 ((exec_dec_of_oversized hover).symm.trans h)
    exact ⟨rfl, fun _ _ => rfl⟩
  case inr =>
    by_cases hraster : s.RasterBorrowed
    case neg => simp [exec, execDec, Nat.not_lt.2 hfit, hraster] at h
    case pos =>
      obtain rfl := (raise_eq_next ..).1 ((exec_dec_of_fit hfit hraster rfl).symm.trans h)
      obtain ⟨-, -, hother⟩ := dec_output_spec (s := s) rfl rfl
      refine ⟨?_, hother⟩
      split <;> rfl

/-- Settles O35: ENC from PMEM is ENC's frame less the stream, which it does not read (R123). -/
theorem codecFrame : Obligations.CodecFrame := by
  refine ⟨fun s t h => ?_, fun s t h => exec_enc_frame h, fun s t h => exec_dec_frame h⟩
  obtain ⟨-, hquiet, -⟩ := sourceIsConsumedOnlyByStreamReads _ s t h
  obtain ⟨hsrc, hbbs⟩ := hquiet rfl
  have hframe := exec_enc_frame h
  rwa [hsrc, hbbs] at hframe

end Sys2Proof.Machine
end

section
/-! The status codes (60_exceptions.md R151): their numbers, and the codes each command can complete with. -/

namespace Sys2Proof.Machine

/-! ### The codes of a completion -/

/-- If the outcome is a next state, its code is one of `cs`. -/
def CodeAmong (cs : List Code) (o : Host.Outcome State Fault Refusal) : Prop :=
  ∀ t, o = .next t → t.code ∈ cs

section
variable {cs : List Code}

theorem codeAmong_raise {c : Code} (hc : c ∈ cs) (u : State) : CodeAmong cs (raise c u) := by
  intro t h
  obtain rfl := (raise_eq_next c u t).1 h
  exact hc

theorem codeAmong_refused (r : Refusal) : CodeAmong cs (.refused r) := nofun

theorem codeAmong_ite {P : Prop} [Decidable P] {a b : Host.Outcome State Fault Refusal}
    (ha : CodeAmong cs a) (hb : CodeAmong cs b) : CodeAmong cs (if P then a else b) := by
  split
  · exact ha
  · exact hb

end

/-- A command that cannot fail. -/
theorem codeAmong_finish (u : State) : CodeAmong [.ok] (finish u) :=
  codeAmong_raise (List.mem_singleton_self _) u

/-- A command that checks its operands and then finishes. -/
theorem codeAmong_checked {P : Prop} [Decidable P] {c : Code} {s u : State} :
    CodeAmong [.ok, c] (if P then raise c s else finish u) :=
  codeAmong_ite (codeAmong_raise (by simp) s) (codeAmong_raise (by simp) u)

/-! ### The row of each command (R151) -/

/-- The row that BRDBITS, ENC and DEC share. -/
abbrev lengthCodes : List Code := [.ok, .endOfSource, .invalidArgument]

theorem codeAmong_execBrdbit (s : State) : CodeAmong [.ok, .endOfSource] (execBrdbit s) := by
  unfold execBrdbit
  split
  next => exact codeAmong_raise (by decide) _
  next => exact codeAmong_raise (by decide) _

theorem codeAmong_execBrdbits (s : State) : CodeAmong lengthCodes (execBrdbits s) :=
  codeAmong_ite (codeAmong_raise (by decide) _)
    (codeAmong_ite (codeAmong_raise (by decide) _) (codeAmong_raise (by decide) _))

/-- ENC and DEC: the length check, the raster check, and a scan that ends with OK or EndOfSource. -/
theorem codeAmong_codec {P Q : Prop} [Decidable P] [Decidable Q] {c : Code} (s u : State) (r : Refusal)
    (hscan : c = .ok ∨ c = .endOfSource) :
    CodeAmong lengthCodes
      (if P then raise .invalidArgument s else if Q then .refused r else raise c u) := by
  have hc : c ∈ lengthCodes := by rcases hscan with rfl | rfl <;> decide
  exact codeAmong_ite (codeAmong_raise (by decide) s)
    (codeAmong_ite (codeAmong_refused r) (codeAmong_raise hc u))

theorem codeAmong_exec (i : Instr) (s : State) : CodeAmong (codesOf i) (exec i s) :=
  match i with
  | .addr | .mask | .cnew _ | .cpos _ | .cadv _ | .cshift _ | .binit => codeAmong_checked
  | .crem _ | .ccmp _ _ | .csub _ _ | .cget _ | .beos | .bget => codeAmong_finish _
  | .brdbit => codeAmong_execBrdbit s
  | .brdbits => codeAmong_execBrdbits s
  | .enc _ => codeAmong_codec _ _ _ (encScan_code ..)
  | .dec => codeAmong_codec _ _ _ (decScan_code ..)

/-- No command's row lists code 7 or code 8 (R159, R162). -/
theorem code_ne_of_mem_codesOf {i : Instr} {c : Code} (h : c ∈ codesOf i) :
    c ≠ .illegalCommand ∧ c ≠ .unsupportedFormat := by
  constructor <;> rintro rfl <;> cases i <;> simp [codesOf] at h

/-! ### The codes (R151) -/

theorem Code.toNat_toBits_lt (c : Code) : c.toBits.toNat < 9 := by
  cases c <;> decide

/-- A core turn on an illegal word completes with IllegalCommand (R67). -/
theorem coreTurn_of_illegal {s : State} (h : wordLegal s.latch.cmd = false) :
    coreTurn s = .next (s.complete .illegalCommand) := by
  cases hdecode : decode s.latch.cmd with
  | ok i => simp [wordLegal_of_decode hdecode] at h
  | error e => exact coreTurn_of_error hdecode

/-- Settles O39: the row of each command bounds its codes, and no row lists codes 7 and 8. -/
theorem codesRaisedByEachCommand : Obligations.CodesRaisedByEachCommand := by
  refine ⟨by decide, Code.toNat_toBits_lt, fun i s t h => ?command, fun s h => ?illegal⟩
  case command =>
    have hmem := codeAmong_exec i s t h
    exact ⟨hmem, code_ne_of_mem_codesOf hmem⟩
  case illegal => exact ⟨_, coreTurn_of_illegal h, rfl⟩

end Sys2Proof.Machine
end

section
/-! Reset (70_reset_and_hazards.md R176 to R178): the reset values, what an abandoned command leaves, and
the block while reset is asserted. -/

namespace Sys2Proof.Machine

/-! ### The reset state (R176) -/

/-- Settles O60. -/
theorem resetMeetsTheInvariant : Obligations.ResetMeetsTheInvariant :=
  ⟨fun _ => inv_resetWith, inv_resetWith (cfg := Params.default) (by decide)⟩

/-- The state with the block at its reset values; what R176's table leaves out (latched copies, raster,
SRC, reset input) and the model's own fields are as in `s`. -/
def State.resetBlock (s : State) : State :=
  { State.resetWith s.cfg with
    latch := s.latch
    raster := s.raster
    src := s.src
    resetHeld := s.resetHeld
    epoch := s.epoch
    events := s.events
    host := s.host
    turns := s.turns }

theorem atResetValues_resetBlock {cfg : Params} {s : State} (hcfg : s.cfg = cfg) :
    AtResetValues cfg s.resetBlock := by
  subst hcfg
  have hstatus : statusWord false .ok = 0#32 := by decide
  have hslots : ∀ c, s.resetBlock.slot c = ⟨0, 0⟩ := slot_resetWith s.cfg
  have hpmem : ∀ a, s.resetBlock.pmemByte a = Config.freePmem s.epoch a := fun _ => rfl
  exact ⟨rfl, rfl, rfl, rfl, rfl, rfl, rfl, hstatus, rfl, rfl, hslots, rfl, rfl, hpmem⟩

/-- Asserting the released reset input resets the block and counts the reset; only a running command's
effects reach the raster and SRC (R177, R178). -/
theorem assertReset_of_released {s : State} (hrel : s.resetHeld = false) :
    assertReset s = State.resetBlock
      { s with
        latch := (State.resetWith s.cfg).latch
        raster := if s.busy then abandonedRaster s else s.raster
        src := if s.busy then abandonedSrc s else s.src
        resetHeld := true
        epoch := s.epoch + 1 } := by
  rw [assertReset, if_neg (by simp [hrel])]
  rfl

/-- Settles O54. -/
theorem resetValues : Obligations.ResetValues := by
  refine ⟨fun cfg => ?start, fun s hrel => ⟨?asserted, fun hidle => ?idle⟩⟩
  case start => exact atResetValues_resetBlock (s := State.resetWith cfg) rfl
  case asserted =>
    rw [assertReset_of_released hrel]
    exact atResetValues_resetBlock rfl
  case idle => simp [assertReset_of_released hrel, State.resetBlock, hidle]

/-! ### An abandoned command (R178) -/

/-- An abandoned ENC within its limit has made its PutPixel calls in order up to some point (R132, R178). -/
theorem abandonedRaster_of_enc {s : State} {m : PayloadSource} (hdecode : decode s.latch.cmd = .ok (.enc m))
    (hfit : s.operand0 ≤ encLimit m s.cfg) :
    abandonedRaster s = s.raster.putAll ((encRun m s).1.puts.take (Config.freePutPrefix s.epoch)) := by
  simp [abandonedRaster, latchedPuts, hdecode, putsOf, Nat.not_lt.2 hfit]

theorem latchedSrcReads_of_next {s t : State} (h : coreTurn s = .next t) :
    latchedSrcReads s = s.src.length - t.src.length := by
  rw [latchedSrcReads, h]

/-- Settles O55: what a command leaves in the raster is decided by its PutPixel calls, and what it leaves
in SRC by the bytes its completion would have removed. -/
theorem resetLeavesAPrefixOfTheAbandonedCommand :
    Obligations.ResetLeavesAPrefixOfTheAbandonedCommand := by
  intro s hrel
  refine ⟨_, _, _, assertReset_of_released hrel, fun hidle => ?idle,
    fun hb m hdecode hfit => ⟨Config.freePutPrefix s.epoch, ?fittingEnc⟩,
    fun hb m hdecode hover => ?oversizedEnc, fun hb hother => ?otherCommand,
    fun hb t ht => ⟨min (Config.freeSrcPrefix s.epoch) (latchedSrcReads s), ?srcCount, ?srcPrefix⟩⟩
  case idle => simp [hidle]
  case fittingEnc => exact (if_pos hb).trans (abandonedRaster_of_enc hdecode hfit)
  case oversizedEnc => exact (if_pos hb).trans (abandonedRaster_of_oversized_enc hdecode hover)
  case otherCommand => exact (if_pos hb).trans (abandonedRaster_of_not_enc hother)
  case srcCount =>
    rw [← latchedSrcReads_of_next ht]
    exact Nat.min_le_right ..
  case srcPrefix => exact if_pos hb

/-! ### While reset is asserted (R177) -/

theorem writeReg_of_held {s : State} (hheld : s.resetHeld = true) (v : Word) (r : HostReg) :
    s.writeReg v (some r) = some s := by
  cases r <;> simp [State.writeReg, hheld]

/-- Settles O56: released, the block is idle still, so the CMD write is accepted as from any idle state. -/
theorem heldResetIgnoresWrites : Obligations.HeldResetIgnoresWrites := by
  intro s hheld hidle
  refine ⟨fun r v => ?register, fun a v => ?pmem, fun w => ?released⟩
  case register =>
    rw [hostDo_wr, writeReg_of_held hheld]
    rfl
  case pmem => simp [hostDo, hostPmemWrite, hheld, hidle, State.hostNext]
  case released =>
    obtain ⟨haccept, -⟩ := cmdWriteIsAcceptedOrStalls (releaseReset s) w
    exact ⟨_, haccept hidle rfl, rfl, rfl⟩

end Sys2Proof.Machine
end
